-- ==== Sys2Proof/Word.lean ====
section
/-! DEFINITION. The widths of the CHIP-8 CORE's values (R8, R10, R72): every one is an unsigned bit vector (R11). -/

namespace Sys2Proof

/-- A general register, a timer, a memory byte or an immediate nn (R8, R72). -/
abbrev Byte := BitVec 8

/-- The index register, the program counter, a return address or an instruction word (R8, R70). -/
abbrev Word := BitVec 16

/-- A 4-bit sub-field of an instruction word (R72). -/
abbrev Nibble := BitVec 4

/-- The 4-bit index that selects a general register V0 to VF (R20). -/
abbrev Reg := BitVec 4

/-- The 12-bit address field nnn (R72). -/
abbrev Addr12 := BitVec 12

/-- A key identifier, 0x0 to 0xF (R8, R33). -/
abbrev Key := BitVec 4

/-- The index of VF, the register that doubles as the flag (R22). -/
abbrev Reg.flag : Reg := 0xF#4

end Sys2Proof
end

