-- ==== Sys2Proof/Config.lean ====
section
/-! DEFINITION. The implementation parameters of R8 and the free value of R196. -/

namespace Sys2Proof

/-- `MEMSIZE`: the address space holds addresses 0x000 to 0xFFF (R8, R36). -/
def Config.memSize : Nat := 4096

/-- `LOAD_BASE`: the program load address and the reset pc (R8, R26, R212). -/
def Config.loadBase : Nat := 0x200

/-- `FONT_BASE`: the address Fx29 assumes for the glyph table (R8, R142). -/
def Config.fontBase : Nat := 0x000

/-- `GLYPH_BYTES`: the bytes per glyph Fx29 assumes (R8, R142). -/
def Config.glyphBytes : Nat := 5

/-- The default of the parameter `STACK_DEPTH` (R8, R9, decision D5).  Only `State.reset` takes it; every rule reads the
parameter itself, `State.stackDepth` (log entry 1). -/
def Config.stackDepth : Nat := 16

/-- `TIMER_HZ`: how often the host issues ticks; it enters no rule of the step relation (R9). -/
def Config.timerHz : Nat := 60

/-- `INSTR_HZ`: OPEN in R8; it enters no rule of the step relation (R9).  A free value, safe: log entry 11. -/
opaque Config.instrHz : Nat

/-- What a byte of memory that nothing has written reads as: the reset contents R36 and R61 give.  UNVERIFIED against
any hardware (the spec's decision D6), unsafe: log entry 5. -/
def Config.resetByte : Byte := 0x00#8

/-- The byte of the n-th draw from the random source.  A FREE VALUE: R196 assumes nothing of the bytes, so nothing in
Lean can evaluate one.  It is what the steps of `Sys2Proof.core` take, whose form gives a step no input; `HostOp.step`
carries its byte instead.  Safe: log entry 2. -/
opaque Config.randomByte : Nat → Byte

end Sys2Proof
end

