-- ==== Sys2Proof/Syntax.lean ====
section
/-! DEFINITION. The instructions: one constructor for each row of spec/opcode_table.json, in the table's order (R75). -/

namespace Sys2Proof

/-- The 34 instructions and the halt word (R75, R76).  Each constructor carries exactly the fields of its row, at their
encoded widths (R72), so no term of this type is out of range.  `shr` and `shl` keep the y field, which the instruction
ignores (R74; DEDUCED, safe: log entry 8); `halt` is a row of the table although R78 counts it as no instruction
(DEDUCED, safe: log entry 10). -/
inductive Instr where
  /-- 0000: the zero word (R93). -/
  | halt
  /-- 00E0 CLS (R160). -/
  | cls
  /-- 00EE RET (R100). -/
  | ret
  /-- 1nnn JP nnn (R101). -/
  | jp (nnn : Addr12)
  /-- 2nnn CALL nnn (R102). -/
  | call (nnn : Addr12)
  /-- 3xnn SE Vx, nn (R105). -/
  | seImm (x : Reg) (nn : Byte)
  /-- 4xnn SNE Vx, nn (R106). -/
  | sneImm (x : Reg) (nn : Byte)
  /-- 5xy0 SE Vx, Vy (R107). -/
  | seReg (x y : Reg)
  /-- 6xnn LD Vx, nn (R120). -/
  | ldImm (x : Reg) (nn : Byte)
  /-- 7xnn ADD Vx, nn (R121). -/
  | addImm (x : Reg) (nn : Byte)
  /-- 8xy0 LD Vx, Vy (R122). -/
  | ldReg (x y : Reg)
  /-- 8xy1 OR Vx, Vy (R123). -/
  | orReg (x y : Reg)
  /-- 8xy2 AND Vx, Vy (R124). -/
  | andReg (x y : Reg)
  /-- 8xy3 XOR Vx, Vy (R125). -/
  | xorReg (x y : Reg)
  /-- 8xy4 ADD Vx, Vy (R126). -/
  | addReg (x y : Reg)
  /-- 8xy5 SUB Vx, Vy (R127). -/
  | subReg (x y : Reg)
  /-- 8xy6 SHR Vx (R128). -/
  | shr (x y : Reg)
  /-- 8xy7 SUBN Vx, Vy (R129). -/
  | subnReg (x y : Reg)
  /-- 8xyE SHL Vx (R130). -/
  | shl (x y : Reg)
  /-- 9xy0 SNE Vx, Vy (R108). -/
  | sneReg (x y : Reg)
  /-- Annn LD I, nnn (R140). -/
  | ldI (nnn : Addr12)
  /-- Bnnn JP V0, nnn (R104). -/
  | jpV0 (nnn : Addr12)
  /-- Cxnn RND Vx, nn (R131). -/
  | rnd (x : Reg) (nn : Byte)
  /-- Dxyn DRW Vx, Vy, n (R161). -/
  | drw (x y : Reg) (n : Nibble)
  /-- Ex9E SKP Vx (R170). -/
  | skp (x : Reg)
  /-- ExA1 SKNP Vx (R171). -/
  | sknp (x : Reg)
  /-- Fx07 LD Vx, DT (R174). -/
  | ldVxDt (x : Reg)
  /-- Fx0A LD Vx, K (R172). -/
  | ldVxK (x : Reg)
  /-- Fx15 LD DT, Vx (R175). -/
  | ldDtVx (x : Reg)
  /-- Fx18 LD ST, Vx (R176). -/
  | ldStVx (x : Reg)
  /-- Fx1E ADD I, Vx (R141). -/
  | addIVx (x : Reg)
  /-- Fx29 LD F, Vx (R142). -/
  | ldFVx (x : Reg)
  /-- Fx33 LD B, Vx (R144). -/
  | ldBVx (x : Reg)
  /-- Fx55 LD [I], Vx (R145). -/
  | storeRegs (x : Reg)
  /-- Fx65 LD Vx, [I] (R146). -/
  | loadRegs (x : Reg)
deriving DecidableEq, Repr

end Sys2Proof
end

