-- ==== Sys2Proof/WellFormed.lean ====
section
/-! DEFINITION. The checks on what comes to the CORE from outside: an instruction word (R77, R79) and a program image
(R212).  A term of Instr needs no check of its own: its operands have exactly the widths of the fields of R72. -/

namespace Sys2Proof

/-- The words that are an instruction or the halt word: the complement of R77's table of unknown words, read top nibble
by top nibble.  It is written without the decode table of R75, so that each can be held against the other. -/
def wellFormedWord (op : Word) : Bool :=
  let low : Nat := (op.extractLsb' 0 4).toNat
  let lowByte : Nat := (op.extractLsb' 0 8).toNat
  match (op.extractLsb' 12 4).toNat with
  | 0x0 => [0x0000#16, 0x00E0#16, 0x00EE#16].contains op
  | 0x5 => low == 0
  | 0x8 => ! [0x8, 0x9, 0xA, 0xB, 0xC, 0xD, 0xF].contains low
  | 0x9 => low == 0
  | 0xE => [0x9E, 0xA1].contains lowByte
  | 0xF => [0x07, 0x0A, 0x15, 0x18, 0x1E, 0x29, 0x33, 0x55, 0x65].contains lowByte
  | _ => true

/-- The program images a caller may load: "caller must ensure length ≤ 4096-0x200" (R212, R60). -/
def wellFormedImage (bytes : List Byte) : Bool :=
  decide (bytes.length ≤ Config.memSize - Config.loadBase)

end Sys2Proof
end

