-- ==== Sys2Proof/Decode.lean ====
section
/-! DEFINITION. The decoder, driven by the table of R75, and the encoder. -/

namespace Sys2Proof

/-- The fields of R72: all of them are extracted from every word, and a row reads the ones its format names (R74). -/
structure Fields where
  nnn : Addr12
  nn : Byte
  n : Nibble
  x : Reg
  y : Reg
deriving DecidableEq, Repr

/-- R72: nnn = op[11:0], nn = op[7:0], n = op[3:0], x = op[11:8], y = op[7:4]. -/
def fieldsOf (op : Word) : Fields where
  nnn := op.extractLsb' 0 12
  nn := op.extractLsb' 0 8
  n := op.extractLsb' 0 4
  x := op.extractLsb' 8 4
  y := op.extractLsb' 4 4

/-- One row of R75: a word matches it when `op & mask == pattern`. -/
structure Row where
  pattern : Word
  mask : Word
  build : Fields → Instr

/-- R75's table, row by row in its order, the halt word first. -/
def decodeTable : List Row := [
  ⟨0x0000#16, 0xFFFF#16, fun _ => .halt⟩,
  ⟨0x00E0#16, 0xFFFF#16, fun _ => .cls⟩,
  ⟨0x00EE#16, 0xFFFF#16, fun _ => .ret⟩,
  ⟨0x1000#16, 0xF000#16, fun f => .jp f.nnn⟩,
  ⟨0x2000#16, 0xF000#16, fun f => .call f.nnn⟩,
  ⟨0x3000#16, 0xF000#16, fun f => .seImm f.x f.nn⟩,
  ⟨0x4000#16, 0xF000#16, fun f => .sneImm f.x f.nn⟩,
  ⟨0x5000#16, 0xF00F#16, fun f => .seReg f.x f.y⟩,
  ⟨0x6000#16, 0xF000#16, fun f => .ldImm f.x f.nn⟩,
  ⟨0x7000#16, 0xF000#16, fun f => .addImm f.x f.nn⟩,
  ⟨0x8000#16, 0xF00F#16, fun f => .ldReg f.x f.y⟩,
  ⟨0x8001#16, 0xF00F#16, fun f => .orReg f.x f.y⟩,
  ⟨0x8002#16, 0xF00F#16, fun f => .andReg f.x f.y⟩,
  ⟨0x8003#16, 0xF00F#16, fun f => .xorReg f.x f.y⟩,
  ⟨0x8004#16, 0xF00F#16, fun f => .addReg f.x f.y⟩,
  ⟨0x8005#16, 0xF00F#16, fun f => .subReg f.x f.y⟩,
  ⟨0x8006#16, 0xF00F#16, fun f => .shr f.x f.y⟩,
  ⟨0x8007#16, 0xF00F#16, fun f => .subnReg f.x f.y⟩,
  ⟨0x800E#16, 0xF00F#16, fun f => .shl f.x f.y⟩,
  ⟨0x9000#16, 0xF00F#16, fun f => .sneReg f.x f.y⟩] ++ [
  ⟨0xA000#16, 0xF000#16, fun f => .ldI f.nnn⟩,
  ⟨0xB000#16, 0xF000#16, fun f => .jpV0 f.nnn⟩,
  ⟨0xC000#16, 0xF000#16, fun f => .rnd f.x f.nn⟩,
  ⟨0xD000#16, 0xF000#16, fun f => .drw f.x f.y f.n⟩,
  ⟨0xE09E#16, 0xF0FF#16, fun f => .skp f.x⟩,
  ⟨0xE0A1#16, 0xF0FF#16, fun f => .sknp f.x⟩,
  ⟨0xF007#16, 0xF0FF#16, fun f => .ldVxDt f.x⟩,
  ⟨0xF00A#16, 0xF0FF#16, fun f => .ldVxK f.x⟩,
  ⟨0xF015#16, 0xF0FF#16, fun f => .ldDtVx f.x⟩,
  ⟨0xF018#16, 0xF0FF#16, fun f => .ldStVx f.x⟩,
  ⟨0xF01E#16, 0xF0FF#16, fun f => .addIVx f.x⟩,
  ⟨0xF029#16, 0xF0FF#16, fun f => .ldFVx f.x⟩,
  ⟨0xF033#16, 0xF0FF#16, fun f => .ldBVx f.x⟩,
  ⟨0xF055#16, 0xF0FF#16, fun f => .storeRegs f.x⟩,
  ⟨0xF065#16, 0xF0FF#16, fun f => .loadRegs f.x⟩]

/-- Why a run of bytes is no instruction. -/
inductive DecodeError where
  /-- Fewer than the two bytes every instruction has (R70). -/
  | truncated
  /-- The word matches no row of R75 (R77). -/
  | unknownOpcode (op : Word)
deriving DecidableEq, Repr

/-- `op & mask == match` of R75. -/
def rowMatches (op : Word) (r : Row) : Bool :=
  op &&& r.mask == r.pattern

/-- R75's `decode(op)`, total on all words: the instruction of the row the word matches, or the unknown word by name. -/
def decodeWord (op : Word) : Except DecodeError Instr :=
  match decodeTable.find? (rowMatches op) with
  | some r => .ok (r.build (fieldsOf op))
  | none => .error (.unknownOpcode op)

/-- The 16-bit word of two bytes in memory order: big-endian, the first byte in bits 15..8 (R56). -/
def wordOfBytes (b0 b1 : Byte) : Word :=
  b0 ++ b1

/-- Decoding a run of bytes, total: the first instruction and the bytes after it. -/
def decodeBytes : List Byte → Except DecodeError (Instr × List Byte)
  | b0 :: b1 :: rest =>
    match decodeWord (wordOfBytes b0 b1) with
    | .ok i => .ok (i, rest)
    | .error e => .error e
  | _ => .error .truncated

/-- The two bytes of a word in memory order (R56). -/
def bytesOfWord (op : Word) : List Byte :=
  [op.extractLsb' 8 8, op.extractLsb' 0 8]

/-- The word whose bits are w, numbered as spec/opcode_table.json numbers them; the bits from nbits up are zero. -/
def tableWord (nbits w : Nat) : Word :=
  BitVec.ofNat 16 (w % 2 ^ nbits)

/-- The instruction the decoder reads from a table row's bits, laid out as the hardware stores them. -/
def decodeTableWord (nbits w : Nat) : Option Instr :=
  match decodeBytes (bytesOfWord (tableWord nbits w)) with
  | .ok (i, _) => some i
  | .error _ => none

/-- Format A of R74: the opcode nibble and nnn. -/
def encodeA (o : Nibble) (nnn : Addr12) : Word :=
  o ++ nnn

/-- Format XN of R74: the opcode nibble, x and nn. -/
def encodeXN (o : Nibble) (x : Reg) (nn : Byte) : Word :=
  o ++ x ++ nn

/-- Formats XY, XYs and XYN of R74: the opcode nibble, x, y and the low nibble. -/
def encodeXY (o : Nibble) (x y : Reg) (s : Nibble) : Word :=
  o ++ x ++ y ++ s

/-- The word of an instruction, from the formats of R74 and the patterns of R75. -/
def encode : Instr → Word
  | .halt => 0x0000#16
  | .cls => 0x00E0#16
  | .ret => 0x00EE#16
  | .jp nnn => encodeA 0x1#4 nnn
  | .call nnn => encodeA 0x2#4 nnn
  | .seImm x nn => encodeXN 0x3#4 x nn
  | .sneImm x nn => encodeXN 0x4#4 x nn
  | .seReg x y => encodeXY 0x5#4 x y 0x0#4
  | .ldImm x nn => encodeXN 0x6#4 x nn
  | .addImm x nn => encodeXN 0x7#4 x nn
  | .ldReg x y => encodeXY 0x8#4 x y 0x0#4
  | .orReg x y => encodeXY 0x8#4 x y 0x1#4
  | .andReg x y => encodeXY 0x8#4 x y 0x2#4
  | .xorReg x y => encodeXY 0x8#4 x y 0x3#4
  | .addReg x y => encodeXY 0x8#4 x y 0x4#4
  | .subReg x y => encodeXY 0x8#4 x y 0x5#4
  | .shr x y => encodeXY 0x8#4 x y 0x6#4
  | .subnReg x y => encodeXY 0x8#4 x y 0x7#4
  | .shl x y => encodeXY 0x8#4 x y 0xE#4
  | .sneReg x y => encodeXY 0x9#4 x y 0x0#4
  | .ldI nnn => encodeA 0xA#4 nnn
  | .jpV0 nnn => encodeA 0xB#4 nnn
  | .rnd x nn => encodeXN 0xC#4 x nn
  | .drw x y n => encodeXY 0xD#4 x y n
  | .skp x => encodeXN 0xE#4 x 0x9E#8
  | .sknp x => encodeXN 0xE#4 x 0xA1#8
  | .ldVxDt x => encodeXN 0xF#4 x 0x07#8
  | .ldVxK x => encodeXN 0xF#4 x 0x0A#8
  | .ldDtVx x => encodeXN 0xF#4 x 0x15#8
  | .ldStVx x => encodeXN 0xF#4 x 0x18#8
  | .addIVx x => encodeXN 0xF#4 x 0x1E#8
  | .ldFVx x => encodeXN 0xF#4 x 0x29#8
  | .ldBVx x => encodeXN 0xF#4 x 0x33#8
  | .storeRegs x => encodeXN 0xF#4 x 0x55#8
  | .loadRegs x => encodeXN 0xF#4 x 0x65#8

/-- The bytes of an instruction in memory order (R56). -/
def encodeBytes (i : Instr) : List Byte :=
  bytesOfWord (encode i)

/-- The spec's own name for each row (R75's mnemonic column; notation only, R80 and R81). -/
def Instr.mnemonic : Instr → String
  | .halt => "(halt)"
  | .cls => "CLS"
  | .ret => "RET"
  | .jp _ => "JP nnn"
  | .call _ => "CALL nnn"
  | .seImm _ _ => "SE Vx, nn"
  | .sneImm _ _ => "SNE Vx, nn"
  | .seReg _ _ => "SE Vx, Vy"
  | .ldImm _ _ => "LD Vx, nn"
  | .addImm _ _ => "ADD Vx, nn"
  | .ldReg _ _ => "LD Vx, Vy"
  | .orReg _ _ => "OR Vx, Vy"
  | .andReg _ _ => "AND Vx, Vy"
  | .xorReg _ _ => "XOR Vx, Vy"
  | .addReg _ _ => "ADD Vx, Vy"
  | .subReg _ _ => "SUB Vx, Vy"
  | .shr _ _ => "SHR Vx"
  | .subnReg _ _ => "SUBN Vx, Vy"
  | .shl _ _ => "SHL Vx"
  | .sneReg _ _ => "SNE Vx, Vy"
  | .ldI _ => "LD I, nnn"
  | .jpV0 _ => "JP V0, nnn"
  | .rnd _ _ => "RND Vx, nn"
  | .drw _ _ _ => "DRW Vx, Vy, n"
  | .skp _ => "SKP Vx"
  | .sknp _ => "SKNP Vx"
  | .ldVxDt _ => "LD Vx, DT"
  | .ldVxK _ => "LD Vx, K"
  | .ldDtVx _ => "LD DT, Vx"
  | .ldStVx _ => "LD ST, Vx"
  | .addIVx _ => "ADD I, Vx"
  | .ldFVx _ => "LD F, Vx"
  | .ldBVx _ => "LD B, Vx"
  | .storeRegs _ => "LD [I], Vx"
  | .loadRegs _ => "LD Vx, [I]"

end Sys2Proof
end

