-- ==== Sys2Proof/Machine/State.lean ====
section
/-! DEFINITION. The architectural state of the CORE (10_state.md), the fault record, and the state after reset (R210). -/

namespace Sys2Proof.Machine

/-- The 4096-byte memory (R36) as the list of its bytes that differ from `Config.resetByte`, addresses strictly rising;
an address not listed reads as `Config.resetByte`. -/
abbrev Memory := List Host.Cell

/-- The framebuffer: `FB[row][col]`, 32 rows (y) of 64 columns (x) of pixels; true is a pixel that is 1 (R37, R162). -/
abbrev Framebuffer := Vector (Vector Bool 64) 32

/-- The fault record f of R34: what a faulting step leaves in `Status.faulted`.  Raising one is a NEXT state (R184), so
no step answers `Host.Outcome.fault`; the type stands there because it is the spec's own list of faults (DEDUCED, safe:
log entry 4). -/
inductive Fault where
  /-- Raised by the step cycle on a word that matches no row of R75 (R77, R94).  Latched, not a stop: safe. -/
  | unknownOpcode (atPc : Word) (op : Word)
  /-- Raised by 00EE with an empty stack (R100).  Latched, not a stop: safe. -/
  | stackUnderflow (atPc : Word)
  /-- Raised by 2nnn with a full stack (R102).  Latched, not a stop: safe. -/
  | stackOverflow (atPc : Word)
  /-- Raised by the fetch, Dxyn, Fx33, Fx55 and Fx65 on an address of 0x1000 or above (R183).  Latched, not a stop: safe. -/
  | outOfBoundsAccess (atPc : Word) (addr : Word)
deriving DecidableEq, Repr

/-- Why an instruction has no meaning. -/
inductive Refusal where
  /-- Raised by an arm of `exec` whose instruction has no meaning yet; no arm of this model raises it.  Safe. -/
  | notModelled (mnemonic : String)
deriving DecidableEq, Repr

/-- The run state of the CORE (R34). -/
inductive Status where
  /-- The next step fetches an instruction. -/
  | running
  /-- An Fx0A is suspended, waiting to store a key into Vx. -/
  | waiting (x : Reg)
  /-- A zero opcode was fetched; terminal until reset. -/
  | halted
  /-- A step ended with fault f; latched until the host clears it or resets. -/
  | faulted (f : Fault)
deriving DecidableEq, Repr

/-- Everything the spec gives the machine (10_state.md), the parameter `stackDepth`, and `draws`. -/
structure State where
  /-- V0 to VF (R20). -/
  v : Vector Byte 16
  /-- The index register I (R24). -/
  i : Word
  /-- The program counter (R26). -/
  pc : Word
  /-- The call stack, the top entry first (R28). -/
  stack : List Word
  /-- DT, the delay timer (R31). -/
  dt : Byte
  /-- ST, the sound timer (R32). -/
  st : Byte
  /-- mem (R36). -/
  mem : Memory
  /-- FB (R37). -/
  fb : Framebuffer
  /-- KEY, the keyboard latch the host writes (R33). -/
  key : Option Key
  /-- status (R34). -/
  status : Status
  /-- The parameter `STACK_DEPTH` of R9: the capacity of the call stack, which nothing changes.  It stands in State so that
  every meaning, step and run is one at any capacity.  DESIGN CHOICE, safe: log entry 1. -/
  stackDepth : Nat
  /-- The model's own: how many bytes the random source has given (R196).  DESIGN CHOICE, safe: log entry 2. -/
  draws : Nat
deriving DecidableEq, Repr

/-- The framebuffer with every pixel 0 (R37, R160). -/
def Framebuffer.clear : Framebuffer :=
  Vector.replicate 32 (Vector.replicate 64 false)

/-- The state right after reset (R210) of a machine with the given `STACK_DEPTH` (R9); `draws` starts at 0 (DESIGN CHOICE:
log entry 2). -/
def State.resetWith (stackDepth : Nat) : State where
  v := Vector.replicate 16 0x00#8
  i := 0x0000#16
  pc := 0x0200#16
  stack := []
  dt := 0x00#8
  st := 0x00#8
  mem := []
  fb := Framebuffer.clear
  key := none
  status := .running
  stackDepth := stackDepth
  draws := 0

/-- The state right after reset (R210), at the default `STACK_DEPTH` (R9; log entry 1). -/
def State.reset : State :=
  State.resetWith Config.stackDepth

end Sys2Proof.Machine
end

