-- ==== Sys2Proof/Machine/Ops.lean ====
section
/-! DEFINITION. The named operations over memory, registers, stack, status and the random source that every meaning is
built from (R12), taking a fault (R184) and the return from one (R186), and fetching an instruction (R91). -/

namespace Sys2Proof.Machine

/-- What a step, a meaning or a transition answers. -/
abbrev Result := Host.Outcome State Fault Refusal

/-! ## Memory -/

/-- The byte at an address: an unlisted one holds its reset contents (R36, R61). -/
def Memory.read : Memory → Nat → Byte
  | [], _ => Config.resetByte
  | (a, b) :: rest, addr => if a = addr then b else Memory.read rest addr

/-- The memory without any entry for an address. -/
def Memory.erase (m : Memory) (addr : Nat) : Memory :=
  m.filter fun c => c.1 != addr

/-- The memory with an entry put in front of the first higher address. -/
def Memory.insert : Memory → Nat → Byte → Memory
  | [], addr, b => [(addr, b)]
  | (a, c) :: rest, addr, b =>
    if a < addr then (a, c) :: Memory.insert rest addr b else (addr, b) :: (a, c) :: rest

/-- R53: a write changes exactly one byte.  An address outside the space has no byte; who writes there raises (R143) or is
refused (R67) first. -/
def Memory.write (m : Memory) (addr : Nat) (b : Byte) : Memory :=
  if addr < Config.memSize then
    if b = Config.resetByte then Memory.erase m addr else Memory.insert (Memory.erase m addr) addr b
  else m

/-- Byte writes at rising addresses from a base, lowest first (R54, R57). -/
def Memory.writeBytes : Memory → Nat → List Byte → Memory
  | m, _, [] => m
  | m, addr, b :: bs => Memory.writeBytes (Memory.write m addr b) (addr + 1) bs

/-- Byte reads at rising addresses from a base, lowest first (R54, R57). -/
def Memory.readBytes (m : Memory) : Nat → Nat → List Byte
  | _, 0 => []
  | addr, n + 1 => Memory.read m addr :: Memory.readBytes m (addr + 1) n

/-- The canonical form: addresses strictly rising and inside the space, no entry equal to what an unlisted address reads
as; so equal memories are equal lists. -/
abbrev Memory.wf (m : Memory) : Prop :=
  m.Pairwise (fun c d => c.1 < d.1) ∧ ∀ c ∈ m, c.1 < Config.memSize ∧ c.2 ≠ Config.resetByte

/-- R52 `MemRead(a, 1)`: the byte, or OutOfBoundsAccess at the instruction's address. -/
def memRead (atPc : Word) (addr : Nat) (m : Memory) : Except Fault Byte :=
  if addr < Config.memSize then .ok (Memory.read m addr)
  else .error (.outOfBoundsAccess atPc (BitVec.ofNat 16 addr))

/-! ## Registers -/

/-- R12 `V[x]`. -/
def State.getV (s : State) (x : Reg) : Byte :=
  s.v[x.toNat]'(x.isLt)

/-- R12 `V[x] <- b`. -/
def State.setV (s : State) (x : Reg) (b : Byte) : State :=
  { s with v := s.v.set x.toNat b x.isLt }

/-- All of V0 to VF at once. -/
def State.setRegs (s : State) (v : Vector Byte 16) : State :=
  { s with v := v }

/-- R12 `I <- w`. -/
def State.setI (s : State) (w : Word) : State :=
  { s with i := w }

/-- R12 `pc <- target`. -/
def State.setPc (s : State) (target : Word) : State :=
  { s with pc := target }

/-- The call stack replaced. -/
def State.setStack (s : State) (st : List Word) : State :=
  { s with stack := st }

/-- R12 `DT <- b`. -/
def State.setDt (s : State) (b : Byte) : State :=
  { s with dt := b }

/-- R12 `ST <- b`. -/
def State.setSt (s : State) (b : Byte) : State :=
  { s with st := b }

/-- The memory replaced. -/
def State.setMem (s : State) (m : Memory) : State :=
  { s with mem := m }

/-- The framebuffer replaced. -/
def State.setFb (s : State) (fb : Framebuffer) : State :=
  { s with fb := fb }

/-- The keyboard latch replaced (R33). -/
def State.setKey (s : State) (k : Option Key) : State :=
  { s with key := k }

/-- status replaced (R34). -/
def State.setStatus (s : State) (st : Status) : State :=
  { s with status := st }

/-- The random source after one more draw (R196). -/
def State.countDraw (s : State) : State :=
  { s with draws := s.draws + 1 }

/-- R92, and the 2 more of a taken skip (R103): `pc <- (pc + 2) mod 2^16`. -/
def State.advance (s : State) : State :=
  s.setPc (s.pc + 2#16)

/-! ## Call stack -/

/-- R29 `push(v)`: none where the stack is at its capacity, STACK_DEPTH, and the push raises StackOverflow (above it too:
DEDUCED, safe, log entry 13). -/
def State.push (w : Word) (s : State) : Option State :=
  if s.stack.length < s.stackDepth then some (s.setStack (w :: s.stack)) else none

/-- R30 `pop()`: the top entry and the state without it, none where it raises StackUnderflow. -/
def State.pop (s : State) : Option (Word × State) :=
  match s.stack with
  | [] => none
  | w :: rest => some (w, s.setStack rest)

/-! ## Status: taking a fault, clearing it, halting -/

/-- R184 `raise f`: status latches the fault and nothing else changes; pc is left as the raising point finds it (advanced
or, for a fetch fault, not). -/
def State.raise (s : State) (f : Fault) : State :=
  s.setStatus (.faulted f)

/-- R186 `clear_fault`: Faulted becomes Running with pc untouched; nothing otherwise. -/
def State.clearFault (s : State) : State :=
  match s.status with
  | .faulted _ => s.setStatus .running
  | _ => s

/-- R12 `halt()`: status becomes Halted and nothing else changes (R93). -/
def State.halt (s : State) : State :=
  s.setStatus .halted

/-- The end of an instruction that neither faults nor stops the machine (R95). -/
def complete (s : State) : Result :=
  .next s

/-- The end of an instruction that raises a fault: a next state (R184). -/
def completeFaulted (f : Fault) (s : State) : Result :=
  .next (s.raise f)

/-! ## The random source -/

/-- The byte the next `RND()` returns: a free value of the draw's number (R196; log entry 2). -/
def State.nextRandom (s : State) : Byte :=
  Config.randomByte s.draws

/-! ## Fetch and the pending key wait -/

/-- R91: the two bytes at pc and pc + 1 as a big-endian word, or the fetch fault. -/
def State.fetch (s : State) : Except Fault Word :=
  match memRead s.pc s.pc.toNat s.mem with
  | .error f => .error f
  | .ok b0 =>
    match memRead s.pc (s.pc.toNat + 1) s.mem with
    | .error f => .error f
    | .ok b1 => .ok (wordOfBytes b0 b1)

/-- R94: a word that decodes to nothing raises UnknownOpcode after the pc advance. -/
def raiseUnknown (op : Word) (s : State) : Result :=
  completeFaulted (.unknownOpcode s.pc op) s.advance

/-- R91: a fetch fault leaves pc at the address fetched. -/
def raiseFetch (f : Fault) (s : State) : Result :=
  completeFaulted f s

/-- R173: a step in Waiting(x) stores a held key into Vx and runs on, or changes nothing. -/
def keyWait (x : Reg) (s : State) : Result :=
  match s.key with
  | some k => complete ((s.setV x (k.setWidth 8)).setStatus .running)
  | none => complete s

/-- R185: a step in Halted or Faulted changes nothing. -/
def stay (s : State) : Result :=
  complete s

/-- Where `withFetchWord` puts its bytes: the pc, or the reset pc where the pc cannot be fetched from (log entry 7). -/
def State.fetchable (s : State) : State :=
  if s.pc.toNat + 1 < Config.memSize then s.setStatus .running
  else (s.setPc (BitVec.ofNat 16 Config.loadBase)).setStatus .running

/-- The state with a word stored, big-endian, where its next step fetches (R56, R91). -/
def State.placeWord (s : State) (op : Word) : State :=
  s.fetchable.setMem (Memory.writeBytes s.fetchable.mem s.fetchable.pc.toNat (bytesOfWord op))

end Sys2Proof.Machine
end

