-- ==== Sys2Proof/Machine/Flags.lean ====
section
/-! DEFINITION. The values VF takes as a flag (R22, R126 to R130, R161), and the order of the two writes (R133). -/

namespace Sys2Proof.Machine

/-- A flag's byte: 0x01 or 0x00. -/
def flagByte (b : Bool) : Byte :=
  if b then 0x01#8 else 0x00#8

/-- R126: 1 iff the exact sum does not fit in 8 bits. -/
def carryFlag (a b : Byte) : Byte :=
  flagByte (decide (a.toNat + b.toNat > 255))

/-- R127, R129: 1 iff `minuend - subtrahend` needs no borrow. -/
def noBorrowFlag (minuend subtrahend : Byte) : Byte :=
  flagByte (decide (minuend.toNat ≥ subtrahend.toNat))

/-- R128: the bit a right shift by one shifts out. -/
def shiftedOutRight (a : Byte) : Byte :=
  a &&& 0x01#8

/-- R130: the bit a left shift by one shifts out. -/
def shiftedOutLeft (a : Byte) : Byte :=
  (a >>> 7) &&& 0x01#8

/-- R133: the result goes to Vx first and the flag to VF second, so that the flag wins where x = F. -/
def State.setResultAndFlag (s : State) (x : Reg) (result flag : Byte) : State :=
  (s.setV x result).setV Reg.flag flag

end Sys2Proof.Machine
end

