-- ==== Sys2Proof/Machine/Operands.lean ====
section
/-! DEFINITION. The operand forms: address fields (R73), the one addressing mode and its range check (R143), the register
block of Fx55 and Fx65, the key test (R177) and the skip (R103). -/

namespace Sys2Proof.Machine

/-- R73 `zext_16(nnn)`. -/
def zextAddr (nnn : Addr12) : Word :=
  nnn.setWidth 16

/-- R143: the effective address of the k-th byte, an exact sum with no wrap. -/
def State.effAddr (s : State) (k : Nat) : Nat :=
  s.i.toNat + k

/-- R143 `CheckRange(base, m)` for m bytes from base, m at least 1: the fault with the lowest out-of-range address. -/
def checkRange (atPc base : Word) (m : Nat) : Option Fault :=
  if base.toNat + m - 1 ≥ Config.memSize then
    some (.outOfBoundsAccess atPc (BitVec.ofNat 16 (max base.toNat Config.memSize)))
  else none

/-- An instruction that touches m bytes from I: the pc advance, the check of the whole range, then its effect (R55, R92,
R143).  With no bytes to touch nothing is checked (R161). -/
def withRange (m : Nat) (effect : State → State) (s : State) : Result :=
  match (if m > 0 then checkRange s.pc s.i m else none) with
  | some f => completeFaulted f s.advance
  | none => complete (effect s.advance)

/-- V0 to Vx, lowest first: the x + 1 bytes Fx55 stores (R145). -/
def State.regBlock (s : State) (x : Reg) : List Byte :=
  s.v.toList.take (x.toNat + 1)

/-- Registers from Vk up filled with the bytes of a list, lowest first (R146). -/
def fillRegs (v : Vector Byte 16) : Nat → List Byte → Vector Byte 16
  | _, [] => v
  | k, b :: bs => fillRegs (v.setIfInBounds k b) (k + 1) bs

/-- R177: true iff KEY is some(k) for exactly this 8-bit value. -/
def State.isPressed (s : State) (k : Byte) : Bool :=
  match s.key with
  | some q => q.setWidth 8 == k
  | none => false

/-- R103: the end of a skip instruction: 2 more on pc if its condition holds. -/
def State.skipIf (s : State) (c : Bool) : State :=
  if c then s.advance else s

end Sys2Proof.Machine
end

