-- ==== Sys2Proof/Machine/Alu.lean ====
section
/-! DEFINITION. Register loads and the ALU (42_alu.md).  Arithmetic is exact on naturals or integers and narrowed to 8 bits
at the end (R132). -/

namespace Sys2Proof.Machine

/-- 6xnn LD Vx, nn (R120). -/
def execLdImm (x : Reg) (nn : Byte) (s : State) : Result :=
  complete (s.advance.setV x nn)

/-- 7xnn ADD Vx, nn (R121): no flag. -/
def execAddImm (x : Reg) (nn : Byte) (s : State) : Result :=
  complete (s.advance.setV x (BitVec.ofNat 8 ((s.getV x).toNat + nn.toNat)))

/-- 8xy0 LD Vx, Vy (R122). -/
def execLdReg (x y : Reg) (s : State) : Result :=
  complete (s.advance.setV x (s.getV y))

/-- 8xy1 OR Vx, Vy (R123). -/
def execOrReg (x y : Reg) (s : State) : Result :=
  complete (s.advance.setV x (s.getV x ||| s.getV y))

/-- 8xy2 AND Vx, Vy (R124). -/
def execAndReg (x y : Reg) (s : State) : Result :=
  complete (s.advance.setV x (s.getV x &&& s.getV y))

/-- 8xy3 XOR Vx, Vy (R125). -/
def execXorReg (x y : Reg) (s : State) : Result :=
  complete (s.advance.setV x (s.getV x ^^^ s.getV y))

/-- 8xy4 ADD Vx, Vy (R126). -/
def execAddReg (x y : Reg) (s : State) : Result :=
  complete (s.advance.setResultAndFlag x (BitVec.ofNat 8 ((s.getV x).toNat + (s.getV y).toNat))
    (carryFlag (s.getV x) (s.getV y)))

/-- `(a - b) mod 256` (R132). -/
def subByte (a b : Byte) : Byte :=
  BitVec.ofInt 8 ((a.toNat : Int) - (b.toNat : Int))

/-- 8xy5 SUB Vx, Vy (R127). -/
def execSubReg (x y : Reg) (s : State) : Result :=
  complete (s.advance.setResultAndFlag x (subByte (s.getV x) (s.getV y)) (noBorrowFlag (s.getV x) (s.getV y)))

/-- 8xy6 SHR Vx (R128): Vy is not read. -/
def execShr (x _y : Reg) (s : State) : Result :=
  complete (s.advance.setResultAndFlag x (s.getV x >>> 1) (shiftedOutRight (s.getV x)))

/-- 8xy7 SUBN Vx, Vy (R129). -/
def execSubnReg (x y : Reg) (s : State) : Result :=
  complete (s.advance.setResultAndFlag x (subByte (s.getV y) (s.getV x)) (noBorrowFlag (s.getV y) (s.getV x)))

/-- 8xyE SHL Vx (R130): Vy is not read. -/
def execShl (x _y : Reg) (s : State) : Result :=
  complete (s.advance.setResultAndFlag x (s.getV x <<< 1) (shiftedOutLeft (s.getV x)))

/-- Cxnn once the random source has given r (R131). -/
def rndWith (r : Byte) (x : Reg) (nn : Byte) (s : State) : Result :=
  complete (s.advance.countDraw.setV x (r &&& nn))

/-- Cxnn RND Vx, nn (R131): the byte is a free value (log entry 2). -/
def execRnd (x : Reg) (nn : Byte) (s : State) : Result :=
  rndWith s.nextRandom x nn s

end Sys2Proof.Machine
end

