-- ==== Sys2Proof/Machine/Cycle.lean ====
section
/-! DEFINITION. The zero word (40_cycle.md). -/

namespace Sys2Proof.Machine

/-- 0000 (R93): Halted, with pc still at the zero word, since the check comes before the advance. -/
def execHalt (s : State) : Result :=
  complete s.halt

end Sys2Proof.Machine
end

