-- ==== Sys2Proof/Machine/Display.lean ====
section
/-! DEFINITION. The framebuffer and the XOR sprite blitter (44_display.md). -/

namespace Sys2Proof.Machine

/-- R162 `FB[r][c]`. -/
def Framebuffer.pixel (fb : Framebuffer) (r : Fin 32) (c : Fin 64) : Bool :=
  fb[r][c]

/-- R162 `FB[r][c] <- p`. -/
def Framebuffer.setPixel (fb : Framebuffer) (r : Fin 32) (c : Fin 64) (p : Bool) : Framebuffer :=
  fb.set r (fb[r].set c p)

/-- What the blit carries along: the framebuffer and whether a pixel went from 1 to 0 so far. -/
abbrev Blitted := Framebuffer × Bool

/-- R163: one sprite bit XORed into its pixel. -/
def blitPixel (r : Fin 32) (c : Fin 64) (b : Bool) (acc : Blitted) : Blitted :=
  (acc.1.setPixel r c (acc.1.pixel r c ^^ b), acc.2 || (b && acc.1.pixel r c))

/-- The row of sprite row i: `(oy + i) mod HEIGHT` (R163). -/
def blitRowOf (oy i : Nat) : Fin 32 :=
  Fin.ofNat 32 (oy + i)

/-- The column of sprite bit j: `(ox + j) mod WIDTH` (R163). -/
def blitColOf (ox j : Nat) : Fin 64 :=
  Fin.ofNat 64 (ox + j)

/-- R163: the 8 bits of one sprite byte, most significant first. -/
def blitByte (ox : Nat) (r : Fin 32) (b : Byte) (acc : Blitted) : Blitted :=
  (List.range 8).foldl (fun a j => blitPixel r (blitColOf ox j) (b.getLsbD (7 - j)) a) acc

/-- R163: the sprite's rows from row i on. -/
def blitRows (ox oy : Nat) : Nat → List Byte → Blitted → Blitted
  | _, [], acc => acc
  | i, b :: bs, acc => blitRows ox oy (i + 1) bs (blitByte ox (blitRowOf oy i) b acc)

/-- R163 `Blit(ox, oy, h, sprite)`: the new framebuffer and the collision. -/
def blit (ox oy : Byte) (sprite : List Byte) (fb : Framebuffer) : Blitted :=
  blitRows ox.toNat oy.toNat 0 sprite (fb, false)

/-- 00E0 CLS (R160). -/
def execCls (s : State) : Result :=
  complete (s.advance.setFb Framebuffer.clear)

/-- A blit's two effects: the framebuffer, then VF (R161). -/
def State.putBlit (s : State) (d : Blitted) : State :=
  (s.setFb d.1).setV Reg.flag (flagByte d.2)

/-- Dxyn once its range is checked (R161): the origin is read before VF is written. -/
def State.drawSprite (x y : Reg) (n : Nibble) (s : State) : State :=
  s.putBlit (blit (s.getV x) (s.getV y) (Memory.readBytes s.mem (s.effAddr 0) n.toNat) s.fb)

/-- Dxyn DRW Vx, Vy, n (R161): with n = 0 no address is checked. -/
def execDrw (x y : Reg) (n : Nibble) (s : State) : Result :=
  withRange n.toNat (State.drawSprite x y n) s

end Sys2Proof.Machine
end

