-- ==== Sys2Proof/Machine/Flow.lean ====
section
/-! DEFINITION. Control transfer and skips (41_flow.md).  A meaning starts from the state the fetch saw, pc at the
instruction, and makes the advance of R92 itself. -/

namespace Sys2Proof.Machine

/-- 00EE RET (R100). -/
def execRet (s : State) : Result :=
  match s.advance.pop with
  | some (w, t) => complete (t.setPc w)
  | none => completeFaulted (.stackUnderflow s.pc) s.advance

/-- 1nnn JP nnn (R101). -/
def execJp (nnn : Addr12) (s : State) : Result :=
  complete (s.advance.setPc (zextAddr nnn))

/-- 2nnn CALL nnn (R102): the pushed value is the advanced pc. -/
def execCall (nnn : Addr12) (s : State) : Result :=
  match s.advance.push s.advance.pc with
  | some t => complete (t.setPc (zextAddr nnn))
  | none => completeFaulted (.stackOverflow s.pc) s.advance

/-- Bnnn JP V0, nnn (R104). -/
def execJpV0 (nnn : Addr12) (s : State) : Result :=
  complete (s.advance.setPc (zextAddr nnn + (s.getV 0x0#4).setWidth 16))

/-- 3xnn SE Vx, nn (R105). -/
def execSeImm (x : Reg) (nn : Byte) (s : State) : Result :=
  complete (s.advance.skipIf (s.getV x == nn))

/-- 4xnn SNE Vx, nn (R106). -/
def execSneImm (x : Reg) (nn : Byte) (s : State) : Result :=
  complete (s.advance.skipIf (s.getV x != nn))

/-- 5xy0 SE Vx, Vy (R107). -/
def execSeReg (x y : Reg) (s : State) : Result :=
  complete (s.advance.skipIf (s.getV x == s.getV y))

/-- 9xy0 SNE Vx, Vy (R108). -/
def execSneReg (x y : Reg) (s : State) : Result :=
  complete (s.advance.skipIf (s.getV x != s.getV y))

end Sys2Proof.Machine
end

