-- ==== Sys2Proof/Machine/IndexMem.lean ====
section
/-! DEFINITION. The index register and the transfers through it (43_index_memory.md). -/

namespace Sys2Proof.Machine

/-- Annn LD I, nnn (R140). -/
def execLdI (nnn : Addr12) (s : State) : Result :=
  complete (s.advance.setI (zextAddr nnn))

/-- Fx1E ADD I, Vx (R141): modulo 2^16, no flag. -/
def execAddIVx (x : Reg) (s : State) : Result :=
  complete (s.advance.setI (BitVec.ofNat 16 (s.i.toNat + (s.getV x).toNat)))

/-- Fx29 LD F, Vx (R142): Vx is not masked to a nibble. -/
def execLdFVx (x : Reg) (s : State) : Result :=
  complete (s.advance.setI (BitVec.ofNat 16 (Config.fontBase + (s.getV x).toNat * Config.glyphBytes)))

/-- The hundreds, tens and ones of a byte (R144). -/
def bcdDigits (b : Byte) : List Byte :=
  [BitVec.ofNat 8 (b.toNat / 100), BitVec.ofNat 8 (b.toNat / 10 % 10), BitVec.ofNat 8 (b.toNat % 10)]

/-- Bytes stored from I up (R143). -/
def State.storeAtI (bytes : List Byte) (s : State) : State :=
  s.setMem (Memory.writeBytes s.mem (s.effAddr 0) bytes)

/-- Fx33 LD B, Vx (R144). -/
def execLdBVx (x : Reg) (s : State) : Result :=
  withRange 3 (fun t => t.storeAtI (bcdDigits (t.getV x))) s

/-- Fx55 LD [I], Vx (R145): I is unchanged. -/
def execStoreRegs (x : Reg) (s : State) : Result :=
  withRange (x.toNat + 1) (fun t => t.storeAtI (t.regBlock x)) s

/-- V0 to Vx loaded from I up (R146). -/
def State.loadBlock (x : Reg) (s : State) : State :=
  s.setRegs (fillRegs s.v 0 (Memory.readBytes s.mem (s.effAddr 0) (x.toNat + 1)))

/-- Fx65 LD Vx, [I] (R146): I is unchanged. -/
def execLoadRegs (x : Reg) (s : State) : Result :=
  withRange (x.toNat + 1) (State.loadBlock x) s

end Sys2Proof.Machine
end

