-- ==== Sys2Proof/Machine/KeysTimers.lean ====
section
/-! DEFINITION. Keyboard and timer instructions (45_keys_timers.md). -/

namespace Sys2Proof.Machine

/-- Ex9E SKP Vx (R170). -/
def execSkp (x : Reg) (s : State) : Result :=
  complete (s.advance.skipIf (s.isPressed (s.getV x)))

/-- ExA1 SKNP Vx (R171). -/
def execSknp (x : Reg) (s : State) : Result :=
  complete (s.advance.skipIf (! s.isPressed (s.getV x)))

/-- Fx07 LD Vx, DT (R174). -/
def execLdVxDt (x : Reg) (s : State) : Result :=
  complete (s.advance.setV x s.dt)

/-- Fx0A LD Vx, K, the issuing step (R172); `keyWait` is its completion (R173). -/
def execLdVxK (x : Reg) (s : State) : Result :=
  complete (s.advance.setStatus (.waiting x))

/-- Fx15 LD DT, Vx (R175). -/
def execLdDtVx (x : Reg) (s : State) : Result :=
  complete (s.advance.setDt (s.getV x))

/-- Fx18 LD ST, Vx (R176). -/
def execLdStVx (x : Reg) (s : State) : Result :=
  complete (s.advance.setSt (s.getV x))

end Sys2Proof.Machine
end

