-- ==== Sys2Proof/Machine/Run.lean ====
section
/-! DEFINITION. The step cycle over any source of the random byte (R90 to R94): the instruction's meaning is an argument, so
that the step with a given byte and the step with a free one are one cycle. -/

namespace Sys2Proof.Machine

/-- An instruction's meaning in a step that is given the byte r: `RND()` of Cxnn returns it (R131, R196), and every other
instruction reads no random byte (R90) and has the meaning `exec` gives it. -/
def execGiven (r : Byte) (i : Instr) (s : State) : Result :=
  match i with
  | .rnd x nn => rndWith r x nn s
  | other => exec other s

/-- R91 to R94: fetch, decode, and the instruction's meaning, which makes the pc advance itself; the order of checks is
R188's. -/
def fetchDecodeExecute (run : Instr → State → Result) (s : State) : Result :=
  match s.fetch with
  | .error f => raiseFetch f s
  | .ok op =>
    match decodeWord op with
    | .ok i => run i s
    | .error _ => raiseUnknown op s

/-- R90: one step, by the status at its start. -/
def stepBy (run : Instr → State → Result) (s : State) : Result :=
  match s.status with
  | .halted => stay s
  | .faulted _ => stay s
  | .waiting x => keyWait x s
  | .running => fetchDecodeExecute run s

end Sys2Proof.Machine
end

