-- ==== Sys2Proof/Machine/Step.lean ====
section
/-! DEFINITION. One step of the CORE (R90). -/

namespace Sys2Proof.Machine

/-- R90, with the random byte a free value (log entry 2). -/
def step (s : State) : Host.Outcome State Fault Refusal :=
  stepBy exec s

/-- R90 `step(s, rnd)`: the host gives the byte `RND()` returns with the step (R196, R197). -/
def stepGiven (r : Byte) (s : State) : Result :=
  stepBy (execGiven r) s

/-- The state whose very next step fetches and runs the instruction with these bits (log entry 7). -/
def State.withFetchWord (s : State) (nbits w : Nat) : State :=
  s.placeWord (tableWord nbits w)

end Sys2Proof.Machine
end

