-- ==== Sys2Proof/Machine/HostOps.lean ====
section
/-! DEFINITION. The host interface (60_exceptions.md sections 4, 7 and 8, 70_reset_and_hazards.md): every operation of
R197 as an atomic transition, several in one cycle (R198), free interleaving (R191), and the outputs (R182, R192, R194). -/

namespace Sys2Proof.Machine

/-- R211 `reset`: every field of R210, at the machine's own `STACK_DEPTH` (log entry 1).  The random source is the host's and
is not rewound (log entry 2). -/
def State.hostReset (s : State) : State :=
  { State.resetWith s.stackDepth with draws := s.draws }

/-- R9: the machine with `STACK_DEPTH` as its argument; `Sys2Proof.core` is the one at the default. -/
def coreWith (stackDepth : Nat) : Host.Core where
  State := State
  Fault := Fault
  Refusal := Refusal
  step := step
  reset := State.resetWith stackDepth

/-- R67, R197 `load(a, b)`: one byte written, or refused without any change at 0x1000 and above. -/
def State.hostLoad (addr : Nat) (b : Byte) (s : State) : State :=
  if addr < Config.memSize then s.setMem (Memory.write s.mem addr b) else s

/-- `load` at rising addresses from a base. -/
def State.hostLoadFrom : Nat → List Byte → State → State
  | _, [], s => s
  | addr, b :: bs, s => State.hostLoadFrom (addr + 1) bs (State.hostLoad addr b s)

/-- R212: program load, byte i to address 0x200 + i. -/
def State.loadProgram (bytes : List Byte) (s : State) : State :=
  State.hostLoadFrom Config.loadBase bytes s

/-- R195 `set_pressed(k)`. -/
def State.setPressed (k : Option Key) (s : State) : State :=
  s.setKey k

/-- R190: a timer counts down to 0 and stays there. -/
def countDown (b : Byte) : Byte :=
  if b.toNat > 0 then BitVec.ofNat 8 (b.toNat - 1) else b

/-- R190 `tick`: the two timers count down independently, whatever the status (R191). -/
def State.tick (s : State) : State :=
  (s.setDt (countDown s.dt)).setSt (countDown s.st)

/-- The operations of R197; `step` carries the byte the host gives with it, its input `rnd`. -/
inductive HostOp where
  | reset
  | load (addr : Nat) (b : Byte)
  | setPressed (k : Option Key)
  | clearFault
  | tick
  | step (rnd : Byte)
deriving DecidableEq, Repr

/-- R197: each operation is one atomic transition. -/
def transition (op : HostOp) (s : State) : Result :=
  match op with
  | .reset => .next s.hostReset
  | .load addr b => .next (s.hostLoad addr b)
  | .setPressed k => .next (s.setPressed k)
  | .clearFault => .next s.clearFault
  | .tick => .next s.tick
  | .step r => stepGiven r s

/-- A schedule of operations, in any order and any number (R191). -/
def runOps : List HostOp → State → Result
  | [], s => .next s
  | op :: ops, s =>
    match transition op s with
    | .next t => runOps ops t
    | .fault f => .fault f
    | .refused r => .refused r

/-- The operations presented in one clock cycle (R198), each with its inputs. -/
structure CycleOps where
  reset : Bool
  load : Option (Nat × Byte)
  setPressed : Option (Option Key)
  clearFault : Bool
  tick : Bool
  step : Option Byte
deriving DecidableEq, Repr

/-- R198: applied one after another in the order reset, load, set_pressed, clear_fault, tick, step. -/
def CycleOps.schedule (c : CycleOps) : List HostOp :=
  (if c.reset then [.reset] else []) ++
  (match c.load with | some (a, b) => [.load a b] | none => []) ++
  (match c.setPressed with | some k => [.setPressed k] | none => []) ++
  (if c.clearFault then [.clearFault] else []) ++
  (if c.tick then [.tick] else []) ++
  (match c.step with | some r => [.step r] | none => [])

/-- R198: one clock cycle. -/
def clockCycle (c : CycleOps) (s : State) : Result :=
  runOps c.schedule s

/-- The input ports of R197 in one clock cycle; `rnd` is the byte the random source gives to the cycle's step (R196). -/
structure Ports where
  rst : Bool
  ldWe : Bool
  ldAddr : BitVec 16
  ldData : Byte
  keyValid : Bool
  keyCode : Nibble
  clr : Bool
  tick : Bool
  step : Bool
  rnd : Byte
deriving DecidableEq, Repr

/-- The operations the ports stand for: the key pair presents a key, or none, in every cycle (PRESUMED, unsafe: log
entry 9). -/
def Ports.ops (p : Ports) : CycleOps where
  reset := p.rst
  load := if p.ldWe then some (p.ldAddr.toNat, p.ldData) else none
  setPressed := some (if p.keyValid then some p.keyCode else none)
  clearFault := p.clr
  tick := p.tick
  step := if p.step then some p.rnd else none

/-- R197, R198: one clock cycle of the port view. -/
def portCycle (p : Ports) (s : State) : Result :=
  clockCycle p.ops s

/-- R192: the sound output. -/
def State.soundOn (s : State) : Bool :=
  s.st != 0x00#8

/-- R194 `snapshot()`: the framebuffer, read without effect. -/
def State.snapshot (s : State) : Framebuffer :=
  s.fb

/-- R182: the numeric status code. -/
def State.statusCode (s : State) : BitVec 3 :=
  match s.status with
  | .running => 0
  | .waiting _ => 1
  | .halted => 2
  | .faulted (.unknownOpcode _ _) => 3
  | .faulted (.stackUnderflow _) => 4
  | .faulted (.stackOverflow _) => 5
  | .faulted (.outOfBoundsAccess _ _) => 6

/-- The info registers of R182. -/
structure InfoRegs where
  faultPc : Word
  faultOp : Word
  faultAddr : Word
  infoX : Nibble
deriving DecidableEq, Repr

/-- R182: the info registers.  Those not valid for the current status hold the FREE VALUE `free`, an argument, so that what
is stated of them holds for every value (log entry 3). -/
def State.infoRegs (free : InfoRegs) (s : State) : InfoRegs :=
  match s.status with
  | .running => free
  | .waiting x => { free with infoX := x }
  | .halted => { free with faultPc := s.pc }
  | .faulted (.unknownOpcode a op) => { free with faultPc := a, faultOp := op }
  | .faulted (.stackUnderflow a) => { free with faultPc := a }
  | .faulted (.stackOverflow a) => { free with faultPc := a }
  | .faulted (.outOfBoundsAccess a addr) => { free with faultPc := a, faultAddr := addr }

/-- The outputs of R197 but for the state's own fields. -/
structure Outputs where
  fb : Framebuffer
  soundOn : Bool
  status : BitVec 3
  info : InfoRegs
deriving DecidableEq, Repr

/-- R197: what the host reads between transitions, without effect. -/
def State.outputs (free : InfoRegs) (s : State) : Outputs where
  fb := s.snapshot
  soundOn := s.soundOn
  status := s.statusCode
  info := s.infoRegs free

end Sys2Proof.Machine
end

