-- ==== Sys2Proof/Safety.lean ====
section
/-! DEFINITION. The terms claims use: how a run ends (R214), the machine's invariant (R27, R28, R36, R183), and what a step
leaves as it was. -/

namespace Sys2Proof.Machine

/-- R214: a run has ended when status is Halted or Faulted; Running and Waiting are not ends. -/
def State.ended (s : State) : Bool :=
  match s.status with
  | .halted => true
  | .faulted _ => true
  | .running => false
  | .waiting _ => false

/-- What a latched fault record may hold (R183): the address of an out-of-bounds access lies outside the space, and an
unknown word matches no row of R75. -/
def Fault.wf : Fault → Prop
  | .unknownOpcode _ op => wellFormedWord op = false
  | .stackUnderflow _ => True
  | .stackOverflow _ => True
  | .outOfBoundsAccess _ addr => Config.memSize ≤ addr.toNat

/-- The record held by a status is one the rules can produce. -/
def Status.wf : Status → Prop
  | .faulted f => f.wf
  | .running => True
  | .waiting _ => True
  | .halted => True

/-- The invariant of the machine: memory in its canonical form (so inside 0x000 to 0xFFF, R36), at most STACK_DEPTH return
addresses, each at most 0x1000 (R28; at + 2 of an instruction that was fetched), pc at most 0x10FE (R27), and a fault record
the rules can produce. -/
structure State.Inv (s : State) : Prop where
  mem : Memory.wf s.mem
  depth : s.stack.length ≤ s.stackDepth
  returns : ∀ a ∈ s.stack, a.toNat ≤ Config.memSize
  pc : s.pc.toNat ≤ 0x10FE
  status : s.status.wf

/-- Every address reads the same byte. -/
def SameMem (s t : State) : Prop :=
  ∀ a : Nat, Memory.read t.mem a = Memory.read s.mem a

/-- Every address outside the m bytes from base reads the same byte. -/
def SameMemOutside (base m : Nat) (s t : State) : Prop :=
  ∀ a : Nat, (a < base ∨ base + m ≤ a) → Memory.read t.mem a = Memory.read s.mem a

/-- Every general register but those listed is unchanged. -/
def SameRegsBut (xs : List Reg) (s t : State) : Prop :=
  ∀ r : Reg, r ∉ xs → t.getV r = s.getV r

/-- I is unchanged. -/
def SameI (s t : State) : Prop :=
  t.i = s.i

/-- The call stack and its capacity are unchanged. -/
def SameStack (s t : State) : Prop :=
  t.stack = s.stack ∧ t.stackDepth = s.stackDepth

/-- Both timers are unchanged. -/
def SameTimers (s t : State) : Prop :=
  t.dt = s.dt ∧ t.st = s.st

/-- Every pixel is unchanged. -/
def SameFb (s t : State) : Prop :=
  ∀ (r : Fin 32) (c : Fin 64), t.fb.pixel r c = s.fb.pixel r c

/-- The keyboard latch, status and the random source are unchanged. -/
def SameLatches (s t : State) : Prop :=
  t.key = s.key ∧ t.status = s.status ∧ t.draws = s.draws

/-- The frame of an instruction whose only effects are on the listed registers and pc. -/
structure OnlyRegs (xs : List Reg) (s t : State) : Prop where
  regs : SameRegsBut xs s t
  i : SameI s t
  stack : SameStack s t
  timers : SameTimers s t
  mem : SameMem s t
  fb : SameFb s t
  latches : SameLatches s t

/-- pc at the following instruction: `at + 2` modulo 2^16 (R92). -/
def NextPc (s t : State) : Prop :=
  t.pc.toNat = (s.pc.toNat + 2) % 65536

/-- pc after a skip: 2 more where it is taken (R103). -/
def SkipPc (taken : Prop) (s t : State) : Prop :=
  (taken → t.pc.toNat = (s.pc.toNat + 4) % 65536) ∧ (¬ taken → t.pc.toNat = (s.pc.toNat + 2) % 65536)

/-- What R184 leaves after a fault raised behind the pc advance: pc at the following instruction, status latched, and
everything else as it was. -/
def afterFault (f : Fault) (s : State) : State :=
  { s with pc := s.pc + 2#16, status := .faulted f }

/-- The address a faulting transfer through I records (R143, R183): the lowest one outside the space. -/
def lowestOutOfRange (base : Word) : Word :=
  if base.toNat < Config.memSize then 0x1000#16 else base

/-- The next step runs this instruction: the machine is Running, and the word at pc can be fetched and decodes to it. -/
def Fetched (i : Instr) (s : State) : Prop :=
  s.status = .running ∧ ∃ op, s.fetch = .ok op ∧ decodeWord op = .ok i

/-- Instructions run one after another, each from the state the one before left. -/
def execAll : List Instr → State → Result
  | [], s => .next s
  | i :: is, s =>
    match exec i s with
    | .next t => execAll is t
    | .fault f => .fault f
    | .refused r => .refused r

/-- R22: the instructions that write VF implicitly, as a flag. -/
def writesFlag : Instr → Bool
  | .addReg _ _ | .subReg _ _ | .shr _ _ | .subnReg _ _ | .shl _ _ | .drw _ _ _ => true
  | .halt | .cls | .ret | .jp _ | .call _ | .seImm _ _ | .sneImm _ _ | .seReg _ _ | .ldImm _ _ | .addImm _ _
  | .ldReg _ _ | .orReg _ _ | .andReg _ _ | .xorReg _ _ | .sneReg _ _ | .ldI _ | .jpV0 _ | .rnd _ _ | .skp _ | .sknp _
  | .ldVxDt _ | .ldVxK _ | .ldDtVx _ | .ldStVx _ | .addIVx _ | .ldFVx _ | .ldBVx _ | .storeRegs _ | .loadRegs _ => false

/-- R21: the registers an instruction names as its destination.  Fx0A writes none when it issues (R172). -/
def namesDest (r : Reg) : Instr → Bool
  | .ldImm x _ | .addImm x _ | .ldReg x _ | .orReg x _ | .andReg x _ | .xorReg x _ | .addReg x _ | .subReg x _ | .shr x _
  | .subnReg x _ | .shl x _ | .rnd x _ | .ldVxDt x => r == x
  | .loadRegs x => decide (r.toNat ≤ x.toNat)
  | .halt | .cls | .ret | .jp _ | .call _ | .seImm _ _ | .sneImm _ _ | .seReg _ _ | .sneReg _ _ | .ldI _ | .jpV0 _
  | .drw _ _ _ | .skp _ | .sknp _ | .ldVxK _ | .ldDtVx _ | .ldStVx _ | .addIVx _ | .ldFVx _ | .ldBVx _
  | .storeRegs _ => false

/-- R163: the pixels a sprite's set bits fall on: bit 7 - j of row k falls on column (ox + j) mod 64 of row
(oy + k) mod 32. -/
def spriteCovers (ox oy : Byte) (sprite : List Byte) (r : Fin 32) (c : Fin 64) : Prop :=
  ∃ (k j : Nat) (b : Byte), sprite[k]? = some b ∧ j < 8 ∧ b.getLsbD (7 - j) = true ∧
    r.val = (oy.toNat + k) % 32 ∧ c.val = (ox.toNat + j) % 64

/-- Some pixel went from 1 to 0 (R161). -/
def turnedOff (before after : Framebuffer) : Prop :=
  ∃ (r : Fin 32) (c : Fin 64), before.pixel r c = true ∧ after.pixel r c = false

end Sys2Proof.Machine
end

