-- ==== Sys2Proof/Certificates/Slice0/Obligations.lean ====
section
/-! DEFINITION. The statements for the provers.  A docstring names the rules a statement formalises, and the spec's own
decision (D<n> of 92_eei_decisions.md) where a rule rests on one. -/

open Sys2Proof Sys2Proof.Machine

/-! ## Reset -/

/-- R210, R211, R9: the reset state, at every stack capacity and at the default one, and what the reset operation leaves from
any state (only the random source, which is the host's, and the capacity go on).  The values other than pc are the spec's
decision D6 (log entry 5); the default capacity 16 is its decision D5; that `stackDepth` and `draws` stand in State is the
model's choice (log entries 1 and 2). -/
def Obligations.ResetLeavesTheListedValues : Prop :=
  (∀ s t : State, (t = State.reset ∨ (∃ d, t = State.resetWith d) ∨ transition .reset s = .next t) →
    (∀ x : Reg, t.getV x = 0x00#8) ∧ t.i = 0x0000#16 ∧ t.pc = 0x0200#16 ∧ t.stack = [] ∧ t.dt = 0x00#8 ∧ t.st = 0x00#8 ∧
      t.key = none ∧ t.status = .running ∧ (∀ a : Nat, Memory.read t.mem a = 0x00#8) ∧
      (∀ (r : Fin 32) (c : Fin 64), t.fb.pixel r c = false) ∧ t.soundOn = false) ∧
  (∀ s : State, ∃ t, transition .reset s = .next t ∧ t.stackDepth = s.stackDepth ∧ t.draws = s.draws) ∧
  State.reset.stackDepth = 16 ∧ (∀ d : Nat, (State.resetWith d).stackDepth = d)

/-! ## Encoding -/

/-- R70, R72, R75: the decoder reads back every instruction with every operand from its word.  That 8xy6 and 8xyE have y as
an operand to read back is the model's choice (log entry 8): R74 says that they ignore it. -/
def Obligations.DecodeOfEncodedInstr : Prop :=
  ∀ i : Instr, decodeWord (encode i) = .ok i

/-- R75: every word that decodes has exactly the bits of the instruction it decodes to; no bit is dropped.  For 8xy6 and 8xyE
this is the model's choice (log entry 8, DEDUCED): R74 says that every value of y selects the same instruction, and the model
keeps y as an operand. -/
def Obligations.EncodeOfDecodedWord : Prop :=
  ∀ (op : Word) (i : Instr), decodeWord op = .ok i → encode i = op

/-- R75, row by row, and "any other word", with the fields of R72.  That the two shift rows answer with y as an operand is the
model's choice (log entry 8, DEDUCED): R74 says that every value of y selects the same instruction. -/
def Obligations.DecodeFollowsEveryRow : Prop :=
  ∀ op : Word,
    let nnn : Addr12 := op.extractLsb' 0 12
    let nn : Byte := op.extractLsb' 0 8
    let n : Nibble := op.extractLsb' 0 4
    let x : Reg := op.extractLsb' 8 4
    let y : Reg := op.extractLsb' 4 4
    (op &&& 0xFFFF#16 = 0x0000#16 → decodeWord op = .ok .halt) ∧
    (op &&& 0xFFFF#16 = 0x00E0#16 → decodeWord op = .ok .cls) ∧
    (op &&& 0xFFFF#16 = 0x00EE#16 → decodeWord op = .ok .ret) ∧
    (op &&& 0xF000#16 = 0x1000#16 → decodeWord op = .ok (.jp nnn)) ∧
    (op &&& 0xF000#16 = 0x2000#16 → decodeWord op = .ok (.call nnn)) ∧
    (op &&& 0xF000#16 = 0x3000#16 → decodeWord op = .ok (.seImm x nn)) ∧
    (op &&& 0xF000#16 = 0x4000#16 → decodeWord op = .ok (.sneImm x nn)) ∧
    (op &&& 0xF00F#16 = 0x5000#16 → decodeWord op = .ok (.seReg x y)) ∧
    (op &&& 0xF000#16 = 0x6000#16 → decodeWord op = .ok (.ldImm x nn)) ∧
    (op &&& 0xF000#16 = 0x7000#16 → decodeWord op = .ok (.addImm x nn)) ∧
    (op &&& 0xF00F#16 = 0x8000#16 → decodeWord op = .ok (.ldReg x y)) ∧
    (op &&& 0xF00F#16 = 0x8001#16 → decodeWord op = .ok (.orReg x y)) ∧
    (op &&& 0xF00F#16 = 0x8002#16 → decodeWord op = .ok (.andReg x y)) ∧
    (op &&& 0xF00F#16 = 0x8003#16 → decodeWord op = .ok (.xorReg x y)) ∧
    (op &&& 0xF00F#16 = 0x8004#16 → decodeWord op = .ok (.addReg x y)) ∧
    (op &&& 0xF00F#16 = 0x8005#16 → decodeWord op = .ok (.subReg x y)) ∧
    (op &&& 0xF00F#16 = 0x8006#16 → decodeWord op = .ok (.shr x y)) ∧
    (op &&& 0xF00F#16 = 0x8007#16 → decodeWord op = .ok (.subnReg x y)) ∧
    (op &&& 0xF00F#16 = 0x800E#16 → decodeWord op = .ok (.shl x y)) ∧
    (op &&& 0xF00F#16 = 0x9000#16 → decodeWord op = .ok (.sneReg x y)) ∧
    (op &&& 0xF000#16 = 0xA000#16 → decodeWord op = .ok (.ldI nnn)) ∧
    (op &&& 0xF000#16 = 0xB000#16 → decodeWord op = .ok (.jpV0 nnn)) ∧
    (op &&& 0xF000#16 = 0xC000#16 → decodeWord op = .ok (.rnd x nn)) ∧
    (op &&& 0xF000#16 = 0xD000#16 → decodeWord op = .ok (.drw x y n)) ∧
    (op &&& 0xF0FF#16 = 0xE09E#16 → decodeWord op = .ok (.skp x)) ∧
    (op &&& 0xF0FF#16 = 0xE0A1#16 → decodeWord op = .ok (.sknp x)) ∧
    (op &&& 0xF0FF#16 = 0xF007#16 → decodeWord op = .ok (.ldVxDt x)) ∧
    (op &&& 0xF0FF#16 = 0xF00A#16 → decodeWord op = .ok (.ldVxK x)) ∧
    (op &&& 0xF0FF#16 = 0xF015#16 → decodeWord op = .ok (.ldDtVx x)) ∧
    (op &&& 0xF0FF#16 = 0xF018#16 → decodeWord op = .ok (.ldStVx x)) ∧
    (op &&& 0xF0FF#16 = 0xF01E#16 → decodeWord op = .ok (.addIVx x)) ∧
    (op &&& 0xF0FF#16 = 0xF029#16 → decodeWord op = .ok (.ldFVx x)) ∧
    (op &&& 0xF0FF#16 = 0xF033#16 → decodeWord op = .ok (.ldBVx x)) ∧
    (op &&& 0xF0FF#16 = 0xF055#16 → decodeWord op = .ok (.storeRegs x)) ∧
    (op &&& 0xF0FF#16 = 0xF065#16 → decodeWord op = .ok (.loadRegs x)) ∧
    ((∀ p ∈ [0x0000#16, 0x00E0#16, 0x00EE#16], op &&& 0xFFFF#16 ≠ p) →
      (∀ p ∈ [0x1000#16, 0x2000#16, 0x3000#16, 0x4000#16, 0x6000#16, 0x7000#16, 0xA000#16, 0xB000#16, 0xC000#16,
        0xD000#16], op &&& 0xF000#16 ≠ p) →
      (∀ p ∈ [0x5000#16, 0x8000#16, 0x8001#16, 0x8002#16, 0x8003#16, 0x8004#16, 0x8005#16, 0x8006#16, 0x8007#16,
        0x800E#16, 0x9000#16], op &&& 0xF00F#16 ≠ p) →
      (∀ p ∈ [0xE09E#16, 0xE0A1#16, 0xF007#16, 0xF00A#16, 0xF015#16, 0xF018#16, 0xF01E#16, 0xF029#16, 0xF033#16,
        0xF055#16, 0xF065#16], op &&& 0xF0FF#16 ≠ p) →
      decodeWord op = .error (.unknownOpcode op))

/-- R77, R79: the words the decoder rejects are exactly those R77 lists by top nibble; `wellFormedWord` is written from R77
without the decode table. -/
def Obligations.RejectedWordsAreTheUnknownOnes : Prop :=
  ∀ op : Word, wellFormedWord op = false ↔ decodeWord op = .error (.unknownOpcode op)

/-- R75: one word of each family, as 95_test_vectors.md writes it.  That 0x84A6 decodes with y = A as an operand is the model's
choice (log entry 8, DEDUCED): vector A15 says only that VA is not read. -/
def Obligations.ListedWordsDecode : Prop :=
  decodeWord 0x2210#16 = .ok (.call 0x210#12) ∧ decodeWord 0x84A6#16 = .ok (.shr 0x4#4 0xA#4) ∧
    decodeWord 0xF21E#16 = .ok (.addIVx 0x2#4) ∧ decodeWord 0xD011#16 = .ok (.drw 0x0#4 0x1#4 0x1#4) ∧
    decodeWord 0xE29E#16 = .ok (.skp 0x2#4) ∧ decodeWord 0x5121#16 = .error (.unknownOpcode 0x5121#16)

/-! ## The step cycle -/

/-- R56: the fetched word is big-endian. -/
def Obligations.FetchIsBigEndian : Prop :=
  ∀ s : State, s.pc.toNat + 1 < 4096 →
    ∃ op : Word, s.fetch = .ok op ∧ op.extractLsb' 8 8 = Memory.read s.mem s.pc.toNat ∧
      op.extractLsb' 0 8 = Memory.read s.mem (s.pc.toNat + 1)

/-- R59, R91 (decisions D1, D2): a fetch at 0xFFF or above latches OutOfBoundsAccess and changes nothing else, pc included. -/
def Obligations.FetchFaultLatches : Prop :=
  ∀ s : State, s.status = .running →
    (s.pc.toNat = 4095 → step s = .next { s with status := .faulted (.outOfBoundsAccess s.pc 0x1000#16) }) ∧
    (4096 ≤ s.pc.toNat → step s = .next { s with status := .faulted (.outOfBoundsAccess s.pc s.pc) })

/-- R90, R91, R94: when the two bytes at pc decode to an instruction, a step of the Running machine is that instruction's
meaning at that state; the pc advance is made inside the meaning, and nothing else stands around it. -/
def Obligations.StepRunsDecodedInstr : Prop :=
  ∀ (s : State) (i : Instr), s.status = .running → s.pc.toNat + 1 < 4096 →
    decodeBytes [Memory.read s.mem s.pc.toNat, Memory.read s.mem (s.pc.toNat + 1)] = .ok (i, []) → step s = exec i s

/-- R77, R94 (decision D2): an unknown word latches UnknownOpcode with pc advanced, and nothing else changes. -/
def Obligations.UnknownWordLatches : Prop :=
  ∀ (s : State) (op : Word), s.status = .running → s.fetch = .ok op → wellFormedWord op = false →
    step s = .next (afterFault (.unknownOpcode s.pc op) s)

/-- R56, R91: from any state, an instruction's word put where the next step fetches (log entry 7) is the one that step
runs. -/
def Obligations.PlacedInstrRuns : Prop :=
  ∀ (s : State) (i : Instr),
    step (s.withFetchWord 16 (encode i).toNat) = exec i (s.withFetchWord 16 (encode i).toNat)

/-- R93 (decision D4): the zero word halts the machine with pc still at it, and changes nothing else. -/
def Obligations.ZeroWordHalts : Prop :=
  ∀ s : State, exec .halt s = .next { s with status := .halted } ∧
    (s.status = .running → s.pc.toNat + 1 < 4096 → Memory.read s.mem s.pc.toNat = 0x00#8 →
      Memory.read s.mem (s.pc.toNat + 1) = 0x00#8 → step s = .next { s with status := .halted })

/-- R185 (decisions D3, D4): a step that starts in Halted or Faulted changes nothing. -/
def Obligations.StoppedMachineStays : Prop :=
  ∀ s : State, (s.status = .halted ∨ ∃ f, s.status = .faulted f) → step s = .next s

/-! ## Control transfer -/

/-- R101, R104, R109 (decisions D1, D9): 1nnn and Bnnn always complete; the target is not checked and never wraps. -/
def Obligations.JumpsSetPc : Prop :=
  ∀ (s : State) (nnn : Addr12),
    (∃ t, exec (.jp nnn) s = .next t ∧ t.pc.toNat = nnn.toNat ∧ OnlyRegs [] s t) ∧
    (∃ t, exec (.jpV0 nnn) s = .next t ∧ t.pc.toNat = nnn.toNat + (s.getV 0x0#4).toNat ∧ OnlyRegs [] s t)

/-- R102 (decision D5): 2nnn with room on the stack pushes the address of the following instruction and jumps. -/
def Obligations.CallPushesReturnAddress : Prop :=
  ∀ (s : State) (nnn : Addr12), s.stack.length < s.stackDepth →
    ∃ t, exec (.call nnn) s = .next t ∧ t.stack = (s.pc + 2#16) :: s.stack ∧ t.pc.toNat = nnn.toNat ∧
      t.stackDepth = s.stackDepth ∧
      SameRegsBut [] s t ∧ SameI s t ∧ SameTimers s t ∧ SameMem s t ∧ SameFb s t ∧ SameLatches s t

/-- R29, R102 (decision D5), R9: at every capacity, a call on a full stack latches StackOverflow with nothing pushed and pc
advanced, not jumped, and a call with room does not.  That a stack already ABOVE its capacity, of which R29 and R102 do not
speak, overflows like a full one is the model's choice (log entry 13, DEDUCED); no run reaches one. -/
def Obligations.CallAtEveryCapacity : Prop :=
  ∀ (depth : Nat) (s : State) (nnn : Addr12), s.stackDepth = depth →
    (depth ≤ s.stack.length → exec (.call nnn) s = .next (afterFault (.stackOverflow s.pc) s)) ∧
    (s.stack.length < depth →
      ∃ t, exec (.call nnn) s = .next t ∧ t.stack = (s.pc + 2#16) :: s.stack ∧ t.pc.toNat = nnn.toNat ∧
        t.status = s.status ∧ t.stackDepth = depth)

/-- R100: 00EE with an entry on the stack takes it off and goes there. -/
def Obligations.RetPopsReturnAddress : Prop :=
  ∀ (s : State) (w : Word) (rest : List Word), s.stack = w :: rest →
    ∃ t, exec .ret s = .next t ∧ t.pc = w ∧ t.stack = rest ∧ t.stackDepth = s.stackDepth ∧
      SameRegsBut [] s t ∧ SameI s t ∧ SameTimers s t ∧ SameMem s t ∧ SameFb s t ∧ SameLatches s t

/-- R30, R100, R184 (decisions D2, D3): 00EE on an empty stack latches StackUnderflow with pc advanced. -/
def Obligations.RetUnderflowLatches : Prop :=
  ∀ s : State, s.stack = [] → exec .ret s = .next (afterFault (.stackUnderflow s.pc) s)

/-- R100, R102, 95_test_vectors.md L1.6: calls nested to any depth the stack has room for come back in reverse order, the last
return to the instruction after the first call, with the stack and everything else as they were. -/
def Obligations.NestedCallsReturn : Prop :=
  ∀ (s : State) (targets : List Addr12), targets ≠ [] → s.stack.length + targets.length ≤ s.stackDepth →
    ∃ t, execAll (targets.map .call ++ List.replicate targets.length .ret) s = .next t ∧ t.pc = s.pc + 2#16 ∧
      OnlyRegs [] s t

/-- R103, R105 to R108: each register skip completes from every state and skips exactly two bytes more iff its condition
holds. -/
def Obligations.RegisterSkipsFollowTheirCondition : Prop :=
  ∀ (s : State) (x y : Reg) (nn : Byte),
    (∃ t, exec (.seImm x nn) s = .next t ∧ SkipPc (s.getV x = nn) s t ∧ OnlyRegs [] s t) ∧
    (∃ t, exec (.sneImm x nn) s = .next t ∧ SkipPc (s.getV x ≠ nn) s t ∧ OnlyRegs [] s t) ∧
    (∃ t, exec (.seReg x y) s = .next t ∧ SkipPc (s.getV x = s.getV y) s t ∧ OnlyRegs [] s t) ∧
    (∃ t, exec (.sneReg x y) s = .next t ∧ SkipPc (s.getV x ≠ s.getV y) s t ∧ OnlyRegs [] s t)

/-- R103, R170, R171, R177 (decision D10): the key skips complete from every state and compare the full 8-bit Vx with the
latched key, so Vx of 16 and above never matches. -/
def Obligations.KeySkipsCompareTheWholeByte : Prop :=
  ∀ (s : State) (x : Reg),
    (∃ t, exec (.skp x) s = .next t ∧ SkipPc (∃ k, s.key = some k ∧ (s.getV x).toNat = k.toNat) s t ∧
      OnlyRegs [] s t) ∧
    (∃ t, exec (.sknp x) s = .next t ∧ SkipPc (¬ ∃ k, s.key = some k ∧ (s.getV x).toNat = k.toNat) s t ∧
      OnlyRegs [] s t)

/-! ## Loads and the ALU -/

/-- R120, R122, R123, R124, R125: the destination takes the value, pc goes to the following instruction, and nothing else
changes; VF only where x = F. -/
def Obligations.LoadAndLogicResults : Prop :=
  ∀ (s : State) (x y : Reg) (nn : Byte),
    (∃ t, exec (.ldImm x nn) s = .next t ∧ t.getV x = nn ∧ NextPc s t ∧ OnlyRegs [x] s t) ∧
    (∃ t, exec (.ldReg x y) s = .next t ∧ t.getV x = s.getV y ∧ NextPc s t ∧ OnlyRegs [x] s t) ∧
    (∃ t, exec (.orReg x y) s = .next t ∧ t.getV x = s.getV x ||| s.getV y ∧ NextPc s t ∧ OnlyRegs [x] s t) ∧
    (∃ t, exec (.andReg x y) s = .next t ∧ t.getV x = s.getV x &&& s.getV y ∧ NextPc s t ∧ OnlyRegs [x] s t) ∧
    (∃ t, exec (.xorReg x y) s = .next t ∧ t.getV x = s.getV x ^^^ s.getV y ∧ NextPc s t ∧ OnlyRegs [x] s t)

/-- R121: the sum modulo 256 goes to Vx, VF included where x = F; no flag is written. -/
def Obligations.AddImmediateWrapsWithoutFlag : Prop :=
  ∀ (s : State) (x : Reg) (nn : Byte),
    ∃ t, exec (.addImm x nn) s = .next t ∧ (t.getV x).toNat = ((s.getV x).toNat + nn.toNat) % 256 ∧ NextPc s t ∧
      OnlyRegs [x] s t

/-- R126, R133 (decision D7): the sum modulo 256 goes to Vx and the carry to VF; where x = F the carry is what VF keeps. -/
def Obligations.AddRegistersSetsCarry : Prop :=
  ∀ (s : State) (x y : Reg),
    ∃ t, exec (.addReg x y) s = .next t ∧
      (x ≠ Reg.flag → (t.getV x).toNat = ((s.getV x).toNat + (s.getV y).toNat) % 256) ∧
      (t.getV Reg.flag).toNat = (if (s.getV x).toNat + (s.getV y).toNat > 255 then 1 else 0) ∧
      NextPc s t ∧ OnlyRegs [x, Reg.flag] s t

/-- R127, R129, R133 (decision D7): the difference modulo 256 goes to Vx and VF is 1 iff there is no borrow; where x = F the
flag is what VF keeps. -/
def Obligations.SubtractionsSetNoBorrow : Prop :=
  ∀ (s : State) (x y : Reg),
    (∃ t, exec (.subReg x y) s = .next t ∧
      (x ≠ Reg.flag → (t.getV x).toNat = (256 + (s.getV x).toNat - (s.getV y).toNat) % 256) ∧
      (t.getV Reg.flag).toNat = (if (s.getV x).toNat ≥ (s.getV y).toNat then 1 else 0) ∧
      NextPc s t ∧ OnlyRegs [x, Reg.flag] s t) ∧
    (∃ t, exec (.subnReg x y) s = .next t ∧
      (x ≠ Reg.flag → (t.getV x).toNat = (256 + (s.getV y).toNat - (s.getV x).toNat) % 256) ∧
      (t.getV Reg.flag).toNat = (if (s.getV y).toNat ≥ (s.getV x).toNat then 1 else 0) ∧
      NextPc s t ∧ OnlyRegs [x, Reg.flag] s t)

/-- R128, R130, R133 (decision D7): Vx is shifted by one, Vy is not read whatever y is, and VF takes the bit shifted out. -/
def Obligations.ShiftsIgnoreVy : Prop :=
  ∀ (s : State) (x y : Reg),
    (∃ t, exec (.shr x y) s = .next t ∧
      (x ≠ Reg.flag → (t.getV x).toNat = (s.getV x).toNat / 2) ∧
      (t.getV Reg.flag).toNat = (s.getV x).toNat % 2 ∧ NextPc s t ∧ OnlyRegs [x, Reg.flag] s t) ∧
    (∃ t, exec (.shl x y) s = .next t ∧
      (x ≠ Reg.flag → (t.getV x).toNat = (s.getV x).toNat * 2 % 256) ∧
      (t.getV Reg.flag).toNat = (s.getV x).toNat / 128 ∧ NextPc s t ∧ OnlyRegs [x, Reg.flag] s t)

/-- R131, R196 (decision D14): for every byte r the random source may give, Cxnn leaves r AND nn, whose bits outside nn are 0;
the CORE's Cxnn is one of these and takes one byte from the source.  R90, R197: a step given the byte r gives it to Cxnn, and
where it fetches no Cxnn the byte changes nothing; a step without an input is one given some byte (log entry 2). -/
def Obligations.RandomByteIsMasked : Prop :=
  ∀ (s : State) (x : Reg) (nn : Byte),
    (∀ r : Byte, ∃ t, rndWith r x nn s = .next t ∧ (∀ k, (t.getV x).getLsbD k = (r.getLsbD k && nn.getLsbD k)) ∧
      NextPc s t ∧ t.draws = s.draws + 1 ∧ SameRegsBut [x] s t ∧ SameI s t ∧ SameStack s t ∧ SameTimers s t ∧ SameMem s t ∧
      SameFb s t ∧ t.key = s.key ∧ t.status = s.status) ∧
    (∃ t, exec (.rnd x nn) s = .next t ∧ (∃ r : Byte, exec (.rnd x nn) s = rndWith r x nn s) ∧
      (∀ k, nn.getLsbD k = false → (t.getV x).getLsbD k = false) ∧ NextPc s t ∧ t.draws = s.draws + 1 ∧
      SameRegsBut [x] s t ∧ SameI s t ∧ SameStack s t ∧ SameTimers s t ∧ SameMem s t ∧ SameFb s t ∧ t.key = s.key ∧
      t.status = s.status) ∧
    (∀ r : Byte, Fetched (.rnd x nn) s → stepGiven r s = rndWith r x nn s) ∧
    (∀ r : Byte, (∀ x' nn', ¬ Fetched (.rnd x' nn') s) → stepGiven r s = step s) ∧
    (∃ r : Byte, step s = stepGiven r s)

/-- R21, R22: a step changes a register only where it completes a key wait into that register, or where the instruction it
runs names the register as a destination or, for VF, writes it as a flag. -/
def Obligations.OnlyNamedRegistersChange : Prop :=
  ∀ (s t : State) (r : Reg), step s = .next t → t.getV r ≠ s.getV r →
    s.status = .waiting r ∨
    ∃ i, Fetched i s ∧ (namesDest r i = true ∨ (r = Reg.flag ∧ writesFlag i = true))

/-! ## Index and memory -/

/-- R140: I takes the 12-bit address, its top four bits 0. -/
def Obligations.LoadIndexTakesAddress : Prop :=
  ∀ (s : State) (nnn : Addr12),
    ∃ t, exec (.ldI nnn) s = .next t ∧ t.i.toNat = nnn.toNat ∧ NextPc s t ∧ SameRegsBut [] s t ∧ SameStack s t ∧
      SameTimers s t ∧ SameMem s t ∧ SameFb s t ∧ SameLatches s t

/-- R141 (decision D8), R142: Fx1E adds modulo 2^16 without a flag; Fx29 multiplies the whole byte by 5. -/
def Obligations.IndexArithmetic : Prop :=
  ∀ (s : State) (x : Reg),
    (∃ t, exec (.addIVx x) s = .next t ∧ t.i.toNat = (s.i.toNat + (s.getV x).toNat) % 65536 ∧ NextPc s t ∧
      SameRegsBut [] s t ∧ SameStack s t ∧ SameTimers s t ∧ SameMem s t ∧ SameFb s t ∧ SameLatches s t) ∧
    (∃ t, exec (.ldFVx x) s = .next t ∧ t.i.toNat = (s.getV x).toNat * 5 ∧ NextPc s t ∧
      SameRegsBut [] s t ∧ SameStack s t ∧ SameTimers s t ∧ SameMem s t ∧ SameFb s t ∧ SameLatches s t)

/-- R144 (decision D2): with the three bytes from I in range, Fx33 stores the decimal digits of Vx there and changes no other
byte. -/
def Obligations.BcdDigitsAreStored : Prop :=
  ∀ (s : State) (x : Reg), s.i.toNat + 2 < 4096 →
    ∃ t, exec (.ldBVx x) s = .next t ∧
      (∃ h d o : Nat, h ≤ 2 ∧ d ≤ 9 ∧ o ≤ 9 ∧ (s.getV x).toNat = 100 * h + 10 * d + o ∧
        (Memory.read t.mem (s.effAddr 0)).toNat = h ∧ (Memory.read t.mem (s.effAddr 1)).toNat = d ∧
        (Memory.read t.mem (s.effAddr 2)).toNat = o) ∧
      SameMemOutside (s.effAddr 0) 3 s t ∧ NextPc s t ∧ SameRegsBut [] s t ∧ SameI s t ∧ SameStack s t ∧
      SameTimers s t ∧ SameFb s t ∧ SameLatches s t

/-- R145 (decision D2): with the x + 1 bytes from I in range, Fx55 stores V0 to Vx there and changes no other byte, nor I. -/
def Obligations.RegisterBlockIsStored : Prop :=
  ∀ (s : State) (x : Reg), s.i.toNat + x.toNat < 4096 →
    ∃ t, exec (.storeRegs x) s = .next t ∧
      (∀ k : Reg, k.toNat ≤ x.toNat → Memory.read t.mem (s.effAddr k.toNat) = s.getV k) ∧
      SameMemOutside (s.effAddr 0) (x.toNat + 1) s t ∧ NextPc s t ∧ SameRegsBut [] s t ∧ SameI s t ∧ SameStack s t ∧
      SameTimers s t ∧ SameFb s t ∧ SameLatches s t

/-- R146 (decision D2): with the x + 1 bytes from I in range, Fx65 loads V0 to Vx from there and changes no other register,
nor I. -/
def Obligations.RegisterBlockIsLoaded : Prop :=
  ∀ (s : State) (x : Reg), s.i.toNat + x.toNat < 4096 →
    ∃ t, exec (.loadRegs x) s = .next t ∧
      (∀ k : Reg, k.toNat ≤ x.toNat → t.getV k = Memory.read s.mem (s.effAddr k.toNat)) ∧
      (∀ k : Reg, x.toNat < k.toNat → t.getV k = s.getV k) ∧
      NextPc s t ∧ SameI s t ∧ SameStack s t ∧ SameTimers s t ∧ SameMem s t ∧ SameFb s t ∧ SameLatches s t

/-- R55, R143 to R146, R161, R184 (decisions D1, D2): a transfer with a byte out of range latches OutOfBoundsAccess with the
lowest out-of-range address and pc advanced, and changes nothing else. -/
def Obligations.TransfersOutOfRangeFault : Prop :=
  ∀ (s : State) (x y : Reg) (n : Nibble),
    let faulted : State := afterFault (.outOfBoundsAccess s.pc (lowestOutOfRange s.i)) s
    (4096 ≤ s.i.toNat + 2 → exec (.ldBVx x) s = .next faulted) ∧
    (4096 ≤ s.i.toNat + x.toNat → exec (.storeRegs x) s = .next faulted) ∧
    (4096 ≤ s.i.toNat + x.toNat → exec (.loadRegs x) s = .next faulted) ∧
    (0 < n.toNat → 4096 ≤ s.i.toNat + n.toNat - 1 → exec (.drw x y n) s = .next faulted)

/-- R145, R146: registers stored by Fx55 come back by an Fx65 from the same I, whatever the registers held in between. -/
def Obligations.StoredBlockLoadsBack : Prop :=
  ∀ (s t u w : State) (x : Reg), s.i.toNat + x.toNat < 4096 → exec (.storeRegs x) s = .next t → SameMem t u → u.i = s.i →
    exec (.loadRegs x) u = .next w → ∀ k : Reg, k.toNat ≤ x.toNat → w.getV k = s.getV k

/-- R57, R65, R215: a two-register store over the following instruction is what the very next step fetches, V0 in the high
byte. -/
def Obligations.StoreIsSeenByTheNextFetch : Prop :=
  ∀ (s t : State) (x : Reg), 1 ≤ x.toNat → s.pc.toNat + 3 < 4096 → s.i.toNat = s.pc.toNat + 2 →
    s.i.toNat + x.toNat < 4096 → exec (.storeRegs x) s = .next t →
    ∃ op, t.fetch = .ok op ∧ op.toNat = (s.getV 0x0#4).toNat * 256 + (s.getV 0x1#4).toNat

/-! ## Display -/

/-- R160: 00E0 clears every pixel and changes nothing else but pc. -/
def Obligations.ClearScreenClearsEveryPixel : Prop :=
  ∀ s : State, ∃ t, exec .cls s = .next t ∧ (∀ (r : Fin 32) (c : Fin 64), t.fb.pixel r c = false) ∧ NextPc s t ∧
    SameRegsBut [] s t ∧ SameI s t ∧ SameStack s t ∧ SameTimers s t ∧ SameMem s t ∧ SameLatches s t

/-- R163, and R164 for the collision of the whole blit: a blit flips exactly the pixels the sprite's set bits fall on, wrapping in both directions, and reports a collision
iff a pixel went from 1 to 0. -/
def Obligations.BlitFlipsCoveredPixels : Prop :=
  ∀ (ox oy : Byte) (sprite : List Byte) (fb : Framebuffer), sprite.length ≤ 15 →
    (∀ (r : Fin 32) (c : Fin 64), (blit ox oy sprite fb).1.pixel r c = true ↔
      ¬ (fb.pixel r c = true ↔ spriteCovers ox oy sprite r c)) ∧
    ((blit ox oy sprite fb).2 = true ↔ turnedOff fb (blit ox oy sprite fb).1)

/-- R161, R165 (decisions D1, D2, D7): Dxyn with its n bytes in range (or n = 0, for any I) flips the pixels the sprite at I
covers from the origin Vx, Vy, sets VF to the collision, and changes nothing else but pc. -/
def Obligations.DrawFlipsSpriteAndSetsCollision : Prop :=
  ∀ (s : State) (x y : Reg) (n : Nibble), (n = 0x0#4 ∨ s.i.toNat + n.toNat - 1 < 4096) →
    ∃ (t : State) (sprite : List Byte), exec (.drw x y n) s = .next t ∧ sprite.length = n.toNat ∧
      (∀ k, k < n.toNat → sprite[k]? = some (Memory.read s.mem (s.i.toNat + k))) ∧
      (∀ (r : Fin 32) (c : Fin 64), t.fb.pixel r c = true ↔
        ¬ (s.fb.pixel r c = true ↔ spriteCovers (s.getV x) (s.getV y) sprite r c)) ∧
      (turnedOff s.fb t.fb → t.getV Reg.flag = 0x01#8) ∧ (¬ turnedOff s.fb t.fb → t.getV Reg.flag = 0x00#8) ∧
      NextPc s t ∧ SameRegsBut [Reg.flag] s t ∧ SameI s t ∧ SameStack s t ∧ SameTimers s t ∧ SameMem s t ∧
      SameLatches s t

/-- R164, 95_test_vectors.md L1.5: a second identical blit restores the framebuffer, and reports a collision exactly when the
first turned a pixel on. -/
def Obligations.SecondBlitRestoresFramebuffer : Prop :=
  ∀ (ox oy : Byte) (sprite : List Byte) (fb : Framebuffer), sprite.length ≤ 15 →
    (blit ox oy sprite (blit ox oy sprite fb).1).1 = fb ∧
    ((blit ox oy sprite (blit ox oy sprite fb).1).2 = true ↔ turnedOff (blit ox oy sprite fb).1 fb)

/-- R165: 00E0 and Dxyn change only FB and, for Dxyn, VF; a memory store never changes a pixel.  pc is the step cycle's,
and status changes only where Dxyn ends with an OutOfBoundsAccess. -/
def Obligations.FramebufferIsApartFromMemory : Prop :=
  ∀ (s t : State) (x y : Reg) (n : Nibble),
    (exec .cls s = .next t → SameRegsBut [] s t ∧ SameI s t ∧ SameStack s t ∧ SameTimers s t ∧ SameMem s t ∧
      SameLatches s t) ∧
    (exec (.drw x y n) s = .next t → SameRegsBut [Reg.flag] s t ∧ SameI s t ∧ SameStack s t ∧ SameTimers s t ∧
      SameMem s t ∧ t.key = s.key ∧ t.draws = s.draws ∧
      (t.status = s.status ∨ ∃ a addr, t.status = .faulted (.outOfBoundsAccess a addr))) ∧
    (exec (.ldBVx x) s = .next t → SameFb s t) ∧ (exec (.storeRegs x) s = .next t → SameFb s t)

/-! ## Timers and keys -/

/-- R174, R175, R176: the delay timer is read into Vx, and either timer takes Vx; nothing else changes but pc. -/
def Obligations.TimerTransfers : Prop :=
  ∀ (s : State) (x : Reg),
    (∃ t, exec (.ldVxDt x) s = .next t ∧ t.getV x = s.dt ∧ NextPc s t ∧ OnlyRegs [x] s t) ∧
    (∃ t, exec (.ldDtVx x) s = .next t ∧ t.dt = s.getV x ∧ t.st = s.st ∧ NextPc s t ∧ SameRegsBut [] s t ∧ SameI s t ∧
      SameStack s t ∧ SameMem s t ∧ SameFb s t ∧ SameLatches s t) ∧
    (∃ t, exec (.ldStVx x) s = .next t ∧ t.st = s.getV x ∧ t.dt = s.dt ∧ NextPc s t ∧ SameRegsBut [] s t ∧ SameI s t ∧
      SameStack s t ∧ SameMem s t ∧ SameFb s t ∧ SameLatches s t ∧ (t.soundOn = true ↔ s.getV x ≠ 0x00#8))

/-- R172 (decision D11): Fx0A suspends the machine with pc advanced and Vx not yet written. -/
def Obligations.KeyWaitSuspends : Prop :=
  ∀ (s : State) (x : Reg),
    ∃ t, exec (.ldVxK x) s = .next t ∧ t.status = .waiting x ∧ NextPc s t ∧ SameRegsBut [] s t ∧ SameI s t ∧
      SameStack s t ∧ SameTimers s t ∧ SameMem s t ∧ SameFb s t ∧ t.key = s.key ∧ t.draws = s.draws

/-- R172, R173 (decision D11): after an Fx0A, any number of steps without a key changes nothing more, and the first step that
sees a key stores it, zero-extended, into Vx and runs on at the following instruction. -/
def Obligations.KeyWaitEndsWithTheKey : Prop :=
  ∀ (s t : State) (x : Reg) (rs : List Byte) (r : Byte) (k : Key), exec (.ldVxK x) s = .next t →
    runOps (.setPressed none :: rs.map .step) t = .next (t.setPressed none) ∧
    ∃ u, runOps (.setPressed none :: rs.map .step ++ [.setPressed (some k), .step r]) t = .next u ∧
      (u.getV x).toNat = k.toNat ∧ u.status = .running ∧ NextPc s u ∧ SameRegsBut [x] s u ∧ SameI s u ∧
      SameStack s u ∧ SameTimers s u ∧ SameMem s u ∧ SameFb s u ∧ u.key = some k ∧ u.draws = s.draws

/-! ## Host operations -/

/-- R190, R191, R192 (decisions D12, D21): n ticks take n from each timer, stopping at 0, whatever the status, and change
nothing else; the sound goes off when ST reaches 0. -/
def Obligations.TicksCountDownToZero : Prop :=
  ∀ (s : State) (n : Nat),
    ∃ t, runOps (List.replicate n .tick) s = .next t ∧ t.dt.toNat = s.dt.toNat - n ∧ t.st.toNat = s.st.toNat - n ∧
      (t.soundOn = true ↔ n < s.st.toNat) ∧ t.pc = s.pc ∧ SameRegsBut [] s t ∧ SameI s t ∧ SameStack s t ∧
      SameMem s t ∧ SameFb s t ∧ SameLatches s t

/-- R195: set_pressed writes the latch, for every value it may hold, and changes nothing else; any other run of ticks, loads
and steps that follows leaves the latch as the host wrote it. -/
def Obligations.OnlyTheHostWritesTheKey : Prop :=
  ∀ (s : State) (k : Option Key),
    transition (.setPressed k) s = .next { s with key := k } ∧
    ∀ (ops : List HostOp) (t : State),
      (∀ op ∈ ops, (∃ r, op = .step r) ∨ op = .tick ∨ op = .clearFault ∨ ∃ a b, op = .load a b) →
      runOps (.setPressed k :: ops) s = .next t → t.key = k

/-- R186 (decisions D3, D4): clearing the fault of a faulted fetch and stepping again faults in the same way; clearing any
other fault leaves the machine Running behind the faulting instruction; clear_fault does nothing in any other status. -/
def Obligations.ClearFaultSkipsOrRetries : Prop :=
  ∀ (s : State) (f : Fault) (r r' : Byte),
    (s.status = .running → s.fetch = .error f →
      runOps [.step r, .clearFault, .step r'] s = .next { s with status := .faulted f }) ∧
    (s.status = .running → transition .clearFault (afterFault f s) = .next { s with pc := s.pc + 2#16 }) ∧
    ((∀ g, s.status ≠ .faulted g) → transition .clearFault s = .next s)

/-- R67, R212 (decision D18): a program of any length is loaded byte by byte from 0x200; bytes that fall at 0x1000 or above
are refused, so that no address of 0x1000 or above reads differently, and nothing else changes. -/
def Obligations.ProgramIsLoadedFrom0x200 : Prop :=
  ∀ (s : State) (bytes : List Byte),
    (∀ k, k < bytes.length → 512 + k < 4096 →
      bytes[k]? = some (Memory.read (s.loadProgram bytes).mem (512 + k))) ∧
    SameMemOutside 512 bytes.length s (s.loadProgram bytes) ∧
    (∀ a : Nat, 4096 ≤ a → Memory.read (s.loadProgram bytes).mem a = Memory.read s.mem a) ∧
    { s.loadProgram bytes with mem := s.mem } = s

/-- R93, R185, R186, R211 (decision D4): no schedule without a reset leaves Halted or changes any register, pixel, pc, I or
stack entry of a halted machine. -/
def Obligations.HaltedUntilReset : Prop :=
  ∀ (ops : List HostOp) (s : State), HostOp.reset ∉ ops → s.status = .halted →
    ∃ t, runOps ops s = .next t ∧ t.status = .halted ∧ t.pc = s.pc ∧ SameRegsBut [] s t ∧ SameI s t ∧ SameStack s t ∧
      SameFb s t ∧ t.draws = s.draws

/-! ## Whole-machine rules -/

/-- R184, R189 (decisions D2, D3): a step that faults changes status and, behind the advance, pc; nothing else. -/
def Obligations.FaultsArePrecise : Prop :=
  ∀ (s t : State) (f : Fault), s.status = .running → step s = .next t → t.status = .faulted f →
    (s.fetch = .error f ∧ t = { s with status := .faulted f }) ∨
    ((∃ op, s.fetch = .ok op) ∧ t = afterFault f s)

/-- R183, R188 (decisions D1, D5, D19, D20): each fault has the cause and the record R183 gives it, and no other instruction
faults. -/
def Obligations.FaultsHaveTheirCause : Prop :=
  ∀ (s t : State), s.status = .running → step s = .next t →
    (∀ a op, t.status = .faulted (.unknownOpcode a op) → a = s.pc ∧ s.fetch = .ok op ∧ wellFormedWord op = false) ∧
    (∀ a, t.status = .faulted (.stackUnderflow a) → a = s.pc ∧ Fetched .ret s ∧ s.stack = []) ∧
    (∀ a, t.status = .faulted (.stackOverflow a) →
      a = s.pc ∧ (∃ nnn, Fetched (.call nnn) s) ∧ s.stackDepth ≤ s.stack.length) ∧
    (∀ a addr, t.status = .faulted (.outOfBoundsAccess a addr) → a = s.pc ∧ 4096 ≤ addr.toNat ∧
      ((4095 ≤ s.pc.toNat ∧ addr = lowestOutOfRange s.pc) ∨
        (addr = lowestOutOfRange s.i ∧
          ((∃ x, Fetched (.ldBVx x) s ∧ 4096 ≤ s.i.toNat + 2) ∨
           (∃ x, (Fetched (.storeRegs x) s ∨ Fetched (.loadRegs x) s) ∧ 4096 ≤ s.i.toNat + x.toNat) ∨
           (∃ x y n, Fetched (.drw x y n) s ∧ 0 < n.toNat ∧ 4096 ≤ s.i.toNat + n.toNat - 1)))))

/-- R97: pc after one step of the Running machine, for every instruction. -/
def Obligations.PcAfterEveryInstr : Prop :=
  ∀ (s t : State) (i : Instr), Fetched i s → step s = .next t →
    match i with
    | .halt => t.pc = s.pc
    | .jp nnn => t.pc.toNat = nnn.toNat
    | .call nnn => if s.stack.length < s.stackDepth then t.pc.toNat = nnn.toNat else NextPc s t
    | .ret => match s.stack with
      | w :: _ => t.pc = w
      | [] => NextPc s t
    | .jpV0 nnn => t.pc.toNat = nnn.toNat + (s.getV 0x0#4).toNat
    | .seImm x nn => SkipPc (s.getV x = nn) s t
    | .sneImm x nn => SkipPc (s.getV x ≠ nn) s t
    | .seReg x y => SkipPc (s.getV x = s.getV y) s t
    | .sneReg x y => SkipPc (s.getV x ≠ s.getV y) s t
    | .skp x => SkipPc (s.isPressed (s.getV x) = true) s t
    | .sknp x => SkipPc (s.isPressed (s.getV x) = false) s t
    | .cls | .ldImm _ _ | .addImm _ _ | .ldReg _ _ | .orReg _ _ | .andReg _ _ | .xorReg _ _ | .addReg _ _
    | .subReg _ _ | .shr _ _ | .subnReg _ _ | .shl _ _ | .ldI _ | .rnd _ _ | .drw _ _ _ | .ldVxDt _ | .ldVxK _
    | .ldDtVx _ | .ldStVx _ | .addIVx _ | .ldFVx _ | .ldBVx _ | .storeRegs _ | .loadRegs _ => NextPc s t

/-- R24, R28, R31, R32, R33, R36, R37: each piece of state is written only by the instructions the spec names for it, and the
keyboard latch, like the parameter STACK_DEPTH, by none. -/
def Obligations.EachFieldHasItsWriters : Prop :=
  ∀ (i : Instr) (s t : State), exec i s = .next t →
    t.key = s.key ∧
    (t.i ≠ s.i → (∃ nnn, i = .ldI nnn) ∨ (∃ x, i = .addIVx x ∨ i = .ldFVx x)) ∧
    (t.stack ≠ s.stack → i = .ret ∨ ∃ nnn, i = .call nnn) ∧
    (t.dt ≠ s.dt → ∃ x, i = .ldDtVx x) ∧
    (t.st ≠ s.st → ∃ x, i = .ldStVx x) ∧
    (t.mem ≠ s.mem → ∃ x, i = .ldBVx x ∨ i = .storeRegs x) ∧
    (t.fb ≠ s.fb → i = .cls ∨ ∃ x y n, i = .drw x y n) ∧
    (t.draws ≠ s.draws → ∃ x nn, i = .rnd x nn) ∧
    t.stackDepth = s.stackDepth

/-- R32: no instruction reads ST.  R33: KEY is read by Ex9E, ExA1 and Fx0A; of these the Fx0A that issues does not read it
(R172), and its completion, which stores the key in Vx (R173), is a step that runs no instruction and is not spoken of here
(KeyWaitEndsWithTheKey speaks of it).  So two runs of `exec` on an instruction that differ in ST, or, but for Ex9E and ExA1,
in KEY, end in states that differ nowhere else. -/
def Obligations.SoundTimerAndKeyDoNotLeak : Prop :=
  ∀ (i : Instr) (s t u : State) (b : Byte) (k : Option Key),
    (exec i s = .next t → exec i (s.setSt b) = .next u → u.setSt 0x00#8 = t.setSt 0x00#8) ∧
    ((∀ x, i ≠ .skp x ∧ i ≠ .sknp x) → exec i s = .next t → exec i (s.setKey k) = .next u → u.setKey none = t.setKey none)

/-- No step stops: every fault, halt and wait of the spec is a next state (R90, R181; decision D3). -/
def Obligations.EveryStepAnswersNextState : Prop :=
  ∀ s : State, (∃ t : State, step s = .next t) ∧ ∀ r : Byte, ∃ t : State, stepGiven r s = .next t

/-- R9, R28, R36, R37: the invariant holds right after reset, at the default capacity and at every other. -/
def Obligations.InvariantHoldsAtReset : Prop :=
  State.reset.Inv ∧ ∀ depth : Nat, (State.resetWith depth).Inv

/-- R27, R28, R36, R183: every step, whatever random byte it is given, keeps the invariant: memory canonical and inside 0x000 to 0xFFF, at most STACK_DEPTH return
addresses of at most 0x1000 each, pc at most 0x10FE, and a fault record the rules can produce. -/
def Obligations.EveryStepKeepsTheInvariant : Prop :=
  ∀ s t : State, s.Inv → (step s = .next t ∨ ∃ r : Byte, stepGiven r s = .next t) → t.Inv

/-- R191, R197, R9: so does every schedule of host operations and steps, and none changes STACK_DEPTH. -/
def Obligations.EveryScheduleKeepsTheInvariant : Prop :=
  ∀ (ops : List HostOp) (s t : State), s.Inv → runOps ops s = .next t → t.Inv ∧ t.stackDepth = s.stackDepth

/-- R36: canonical memories that read the same at every address are equal, so that equal states are equal data. -/
def Obligations.CanonicalMemoryIsUnique : Prop :=
  ∀ m m' : Memory, Memory.wf m → Memory.wf m' → (∀ a : Nat, Memory.read m a = Memory.read m' a) → m = m'

/-- R182 (decision D20): the status codes and the info registers valid for each, whatever the others hold (log entry 3). -/
def Obligations.StatusCodesAndInfoRegisters : Prop :=
  ∀ (s : State) (free : InfoRegs),
    (s.status = .running → s.statusCode = 0) ∧
    (∀ x, s.status = .waiting x → s.statusCode = 1 ∧ (s.infoRegs free).infoX = x) ∧
    (s.status = .halted → s.statusCode = 2 ∧ (s.infoRegs free).faultPc = s.pc) ∧
    (∀ a op, s.status = .faulted (.unknownOpcode a op) →
      s.statusCode = 3 ∧ (s.infoRegs free).faultPc = a ∧ (s.infoRegs free).faultOp = op) ∧
    (∀ a, s.status = .faulted (.stackUnderflow a) → s.statusCode = 4 ∧ (s.infoRegs free).faultPc = a) ∧
    (∀ a, s.status = .faulted (.stackOverflow a) → s.statusCode = 5 ∧ (s.infoRegs free).faultPc = a) ∧
    (∀ a addr, s.status = .faulted (.outOfBoundsAccess a addr) →
      s.statusCode = 6 ∧ (s.infoRegs free).faultPc = a ∧ (s.infoRegs free).faultAddr = addr)
end

