-- ==== Sys2Proof/Laws/Decode.lean ====
section
/-! SUPPORT. The decode table's rows are disjoint (R75), so the row a word matches decides what it decodes to; and the fields
of an encoded word are the operands it was built from (R72, R74). -/

namespace Sys2Proof

/-- Two rows that disagree on a bit both of them fix. -/
abbrev rowsDiffer (r r' : Row) : Prop :=
  (r.pattern ^^^ r'.pattern) &&& (r.mask &&& r'.mask) ≠ 0#16

/-- R75: "The rows are disjoint, so order does not matter." -/
theorem decodeTable_disjoint : decodeTable.Pairwise rowsDiffer := by decide

/-- A word matches at most one of two rows that differ. -/
theorem not_rowMatches_of_differ {r r' : Row} (h : rowsDiffer r r') (op : Word) (hm : rowMatches op r = true) :
    rowMatches op r' = false := by
  rw [Bool.eq_false_iff]
  intro hm'
  apply h
  simp only [rowMatches, beq_iff_eq] at hm hm'
  rw [← hm, ← hm']
  ext k hk
  simp only [BitVec.getElem_and, BitVec.getElem_xor, BitVec.getElem_zero]
  cases op[k] <;> cases r.mask[k] <;> cases r'.mask[k] <;> rfl

/-- In a list of rows that pairwise differ, the row a word matches is the one a search finds. -/
theorem find?_row {rows : List Row} (hd : rows.Pairwise rowsDiffer) {r : Row} (hr : r ∈ rows) {op : Word}
    (hm : rowMatches op r = true) : rows.find? (rowMatches op) = some r := by
  induction rows with
  | nil => simp at hr
  | cons q rows ih =>
    rw [List.pairwise_cons] at hd
    rcases List.mem_cons.1 hr with rfl | hr
    · simp [hm]
    · have hq : rowMatches op q = false := by
        by_contra hc
        rw [Bool.not_eq_false] at hc
        rw [not_rowMatches_of_differ (hd.1 r hr) op hc] at hm
        cases hm
      rw [List.find?_cons, hq]
      exact ih hd.2 hr

/-- A word that matches a row of the table decodes to that row's instruction. -/
theorem decodeWord_of_row {r : Row} (hr : r ∈ decodeTable) {op : Word} (hm : rowMatches op r = true) :
    decodeWord op = .ok (r.build (fieldsOf op)) := by
  rw [decodeWord, find?_row decodeTable_disjoint hr hm]

/-- Everything the decoder can answer. -/
theorem decodeWord_cases (op : Word) :
    (∃ r ∈ decodeTable, rowMatches op r = true ∧ decodeWord op = .ok (r.build (fieldsOf op))) ∨
    ((∀ r ∈ decodeTable, rowMatches op r = false) ∧ decodeWord op = .error (.unknownOpcode op)) := by
  by_cases h : ∃ r ∈ decodeTable, rowMatches op r = true
  · obtain ⟨r, hr, hm⟩ := h
    exact .inl ⟨r, hr, hm, decodeWord_of_row hr hm⟩
  · have h' : ∀ r ∈ decodeTable, rowMatches op r = false := by simpa using h
    refine .inr ⟨h', ?_⟩
    have : decodeTable.find? (rowMatches op) = none := by
      rw [List.find?_eq_none]
      intro r hr
      simp [h' r hr]
    rw [decodeWord, this]

/-! ### the fields of an encoded word -/

/-- Two words with the same four nibbles are equal. -/
theorem Word.ext_nibbles {a b : Word} (h3 : a.extractLsb' 12 4 = b.extractLsb' 12 4)
    (h2 : a.extractLsb' 8 4 = b.extractLsb' 8 4) (h1 : a.extractLsb' 4 4 = b.extractLsb' 4 4)
    (h0 : a.extractLsb' 0 4 = b.extractLsb' 0 4) : a = b := by
  ext k hk
  have e3 := congrArg (fun v => v.getLsbD (k - 12)) h3
  have e2 := congrArg (fun v => v.getLsbD (k - 8)) h2
  have e1 := congrArg (fun v => v.getLsbD (k - 4)) h1
  have e0 := congrArg (fun v => v.getLsbD k) h0
  simp only [BitVec.getLsbD_extractLsb'] at e0 e1 e2 e3
  rw [← BitVec.getLsbD_eq_getElem, ← BitVec.getLsbD_eq_getElem]
  rcases Nat.lt_or_ge k 4 with h | h
  · simpa [h] using e0
  rcases Nat.lt_or_ge k 8 with h' | h'
  · simpa [show k - 4 < 4 by omega, show 4 + (k - 4) = k by omega] using e1
  rcases Nat.lt_or_ge k 12 with h'' | h''
  · simpa [show k - 8 < 4 by omega, show 8 + (k - 8) = k by omega] using e2
  · simpa [show k - 12 < 4 by omega, show 12 + (k - 12) = k by omega] using e3

/-- The bits of a format A word. -/
theorem getLsbD_encodeA (o : Nibble) (nnn : Addr12) (k : Nat) :
    (encodeA o nnn).getLsbD k = if k < 12 then nnn.getLsbD k else o.getLsbD (k - 12) :=
  BitVec.getLsbD_append

/-- The bits of a format XN word. -/
theorem getLsbD_encodeXN (o : Nibble) (x : Reg) (nn : Byte) (k : Nat) :
    (encodeXN o x nn).getLsbD k =
      if k < 8 then nn.getLsbD k else if k - 8 < 4 then x.getLsbD (k - 8) else o.getLsbD (k - 8 - 4) := by
  have h1 : (encodeXN o x nn).getLsbD k = if k < 8 then nn.getLsbD k else (o ++ x).getLsbD (k - 8) :=
    BitVec.getLsbD_append
  rw [h1, BitVec.getLsbD_append]

/-- The bits of a format XY word. -/
theorem getLsbD_encodeXY (o : Nibble) (x y : Reg) (n : Nibble) (k : Nat) :
    (encodeXY o x y n).getLsbD k =
      if k < 4 then n.getLsbD k else if k - 4 < 4 then y.getLsbD (k - 4)
      else if k - 4 - 4 < 4 then x.getLsbD (k - 4 - 4) else o.getLsbD (k - 4 - 4 - 4) := by
  have h1 : (encodeXY o x y n).getLsbD k = if k < 4 then n.getLsbD k else (o ++ x ++ y).getLsbD (k - 4) :=
    BitVec.getLsbD_append
  rw [h1, BitVec.getLsbD_append, BitVec.getLsbD_append]

/-- Two bit vectors with the same numbered bits are equal. -/
theorem ext_getLsbD {w : Nat} {a b : BitVec w} (h : ∀ k, k < w → a.getLsbD k = b.getLsbD k) : a = b :=
  BitVec.eq_of_getLsbD_eq h

/-- The fields a format A row reads. -/
theorem nnn_encodeA (o : Nibble) (nnn : Addr12) : (fieldsOf (encodeA o nnn)).nnn = nnn := by
  refine ext_getLsbD fun k hk => ?_
  simp [fieldsOf, getLsbD_encodeA, hk]

/-- The x field of a format XN word. -/
theorem x_encodeXN (o : Nibble) (x : Reg) (nn : Byte) : (fieldsOf (encodeXN o x nn)).x = x := by
  refine ext_getLsbD fun k hk => ?_
  simp [fieldsOf, getLsbD_encodeXN, hk]

/-- The nn field of a format XN word. -/
theorem nn_encodeXN (o : Nibble) (x : Reg) (nn : Byte) : (fieldsOf (encodeXN o x nn)).nn = nn := by
  refine ext_getLsbD fun k hk => ?_
  simp [fieldsOf, getLsbD_encodeXN, hk]

/-- The x field of a format XY word. -/
theorem x_encodeXY (o : Nibble) (x y : Reg) (n : Nibble) : (fieldsOf (encodeXY o x y n)).x = x := by
  refine ext_getLsbD fun k hk => ?_
  simp [fieldsOf, getLsbD_encodeXY, hk, show ¬ 8 + k < 4 by omega,
    show ¬ 8 + k - 4 < 4 by omega, show 8 + k - 4 - 4 = k by omega]

/-- The y field of a format XY word. -/
theorem y_encodeXY (o : Nibble) (x y : Reg) (n : Nibble) : (fieldsOf (encodeXY o x y n)).y = y := by
  refine ext_getLsbD fun k hk => ?_
  simp [fieldsOf, getLsbD_encodeXY, hk]

/-- The n field of a format XY word. -/
theorem n_encodeXY (o : Nibble) (x y : Reg) (n : Nibble) : (fieldsOf (encodeXY o x y n)).n = n := by
  refine ext_getLsbD fun k hk => ?_
  simp [fieldsOf, getLsbD_encodeXY, hk]

/-! ### which row an encoded word matches -/

/-- A format A word under the mask of its format keeps its opcode nibble. -/
theorem mask_encodeA (o : Nibble) (nnn : Addr12) : encodeA o nnn &&& 0xF000#16 = encodeA o 0#12 := by
  refine ext_getLsbD fun k hk => ?_
  rw [BitVec.getLsbD_and, getLsbD_encodeA, getLsbD_encodeA]
  interval_cases k <;> simp

/-- A format XN word under the mask that fixes its opcode nibble. -/
theorem mask_encodeXN_top (o : Nibble) (x : Reg) (nn : Byte) : encodeXN o x nn &&& 0xF000#16 = encodeXN o 0#4 0#8 := by
  refine ext_getLsbD fun k hk => ?_
  rw [BitVec.getLsbD_and, getLsbD_encodeXN, getLsbD_encodeXN]
  interval_cases k <;> simp

/-- A format X word under the mask that fixes its opcode nibble and its low byte. -/
theorem mask_encodeXN_low (o : Nibble) (x : Reg) (nn : Byte) : encodeXN o x nn &&& 0xF0FF#16 = encodeXN o 0#4 nn := by
  refine ext_getLsbD fun k hk => ?_
  rw [BitVec.getLsbD_and, getLsbD_encodeXN, getLsbD_encodeXN]
  interval_cases k <;> simp

/-- A format XYN word under the mask that fixes its opcode nibble. -/
theorem mask_encodeXY_top (o : Nibble) (x y : Reg) (n : Nibble) :
    encodeXY o x y n &&& 0xF000#16 = encodeXY o 0#4 0#4 0#4 := by
  refine ext_getLsbD fun k hk => ?_
  rw [BitVec.getLsbD_and, getLsbD_encodeXY, getLsbD_encodeXY]
  interval_cases k <;> simp

/-- A format XY word under the mask that fixes its opcode nibble and its low nibble. -/
theorem mask_encodeXY_low (o : Nibble) (x y : Reg) (n : Nibble) :
    encodeXY o x y n &&& 0xF00F#16 = encodeXY o 0#4 0#4 n := by
  refine ext_getLsbD fun k hk => ?_
  rw [BitVec.getLsbD_and, getLsbD_encodeXY, getLsbD_encodeXY]
  interval_cases k <;> simp

/-! ### a word that matches a row, from its own fields -/

/-- A word is the format A word of its opcode nibble and its nnn. -/
theorem encodeA_fields (op : Word) : encodeA (op.extractLsb' 12 4) (fieldsOf op).nnn = op := by
  refine ext_getLsbD fun k hk => ?_
  rw [getLsbD_encodeA]
  simp only [fieldsOf, BitVec.getLsbD_extractLsb']
  interval_cases k <;> simp

/-- A word is the format XN word of its opcode nibble, its x and its nn. -/
theorem encodeXN_fields (op : Word) : encodeXN (op.extractLsb' 12 4) (fieldsOf op).x (fieldsOf op).nn = op := by
  refine ext_getLsbD fun k hk => ?_
  rw [getLsbD_encodeXN]
  simp only [fieldsOf, BitVec.getLsbD_extractLsb']
  interval_cases k <;> simp

/-- A word is the format XYN word of its opcode nibble, its x, its y and its n. -/
theorem encodeXY_fields (op : Word) :
    encodeXY (op.extractLsb' 12 4) (fieldsOf op).x (fieldsOf op).y (fieldsOf op).n = op := by
  refine ext_getLsbD fun k hk => ?_
  rw [getLsbD_encodeXY]
  simp only [fieldsOf, BitVec.getLsbD_extractLsb']
  interval_cases k <;> simp

/-- The field at a place both operands of an AND agree on the mask of: the field of a masked word where the mask is all
ones. -/
theorem extractLsb'_of_mask {op mask pattern : Word} (h : op &&& mask = pattern) (start len : Nat)
    (hm : mask.extractLsb' start len = BitVec.allOnes len) :
    op.extractLsb' start len = pattern.extractLsb' start len := by
  rw [← h, BitVec.extractLsb'_and, hm, BitVec.and_allOnes]

end Sys2Proof
end

