-- ==== Sys2Proof/Laws/Memory.lean ====
section
/-! SUPPORT. The laws of memory: a read after a write, that every operation keeps the canonical form, and that canonical
memories with the same bytes are equal. -/

namespace Sys2Proof.Machine

@[simp] theorem Memory.read_nil (a : Nat) : Memory.read [] a = Config.resetByte := rfl

@[simp] theorem Memory.erase_nil (a : Nat) : Memory.erase [] a = [] := rfl

theorem Memory.read_cons (a : Nat) (b : Byte) (m : Memory) (addr : Nat) :
    Memory.read ((a, b) :: m) addr = if a = addr then b else Memory.read m addr := rfl

theorem Memory.erase_cons (a : Nat) (b : Byte) (m : Memory) (addr : Nat) :
    Memory.erase ((a, b) :: m) addr = if a = addr then Memory.erase m addr else (a, b) :: Memory.erase m addr := by
  by_cases h : a = addr <;> simp [Memory.erase, h]

/-! ### reads -/

/-- An address that is not listed reads as reset left it. -/
theorem Memory.read_unlisted (m : Memory) (a : Nat) (h : ∀ c ∈ m, c.1 ≠ a) :
    Memory.read m a = Config.resetByte := by
  induction m with
  | nil => rfl
  | cons c m ih =>
    obtain ⟨k, b⟩ := c
    simp only [List.mem_cons, forall_eq_or_imp] at h
    rw [Memory.read_cons, if_neg h.1, ih h.2]

theorem Memory.read_erase (m : Memory) (addr a : Nat) :
    Memory.read (Memory.erase m addr) a = if addr = a then Config.resetByte else Memory.read m a := by
  induction m with
  | nil => simp
  | cons c m ih =>
    obtain ⟨k, b⟩ := c
    rw [Memory.erase_cons, Memory.read_cons]
    split
    · subst k; rw [ih]; split <;> rfl
    · rw [Memory.read_cons, ih]
      by_cases h : k = a
      · subst a; simp_all [Ne.symm]
      · simp [h]

theorem Memory.read_insert (m : Memory) (addr : Nat) (b : Byte) (a : Nat) (h : ∀ c ∈ m, c.1 ≠ addr) :
    Memory.read (Memory.insert m addr b) a = if addr = a then b else Memory.read m a := by
  induction m with
  | nil => simp [Memory.insert, Memory.read_cons]
  | cons c m ih =>
    obtain ⟨k, d⟩ := c
    simp only [List.mem_cons, forall_eq_or_imp] at h
    simp only [Memory.insert]
    split
    · rw [Memory.read_cons, Memory.read_cons, ih h.2]
      by_cases h1 : k = a
      · subst a; simp [Ne.symm h.1]
      · simp [h1]
    · rw [Memory.read_cons]

theorem Memory.mem_erase (m : Memory) (addr : Nat) (c : Host.Cell) :
    c ∈ Memory.erase m addr ↔ c ∈ m ∧ c.1 ≠ addr := by
  simp [Memory.erase]

/-- R53, R63: a byte inside the space reads as it was last written, and every other byte is as it was. -/
theorem Memory.read_write (m : Memory) (addr : Nat) (b : Byte) (a : Nat) (h : addr < Config.memSize) :
    Memory.read (Memory.write m addr b) a = if addr = a then b else Memory.read m a := by
  simp only [Memory.write, if_pos h]
  split
  · subst b; exact Memory.read_erase m addr a
  · rw [Memory.read_insert _ _ _ _ fun c hc => ((Memory.mem_erase m addr c).1 hc).2, Memory.read_erase]
    split <;> simp_all

/-- A write leaves every other byte alone, wherever it goes. -/
theorem Memory.read_write_other (m : Memory) (addr : Nat) (b : Byte) (a : Nat) (h : addr ≠ a) :
    Memory.read (Memory.write m addr b) a = Memory.read m a := by
  by_cases hr : addr < Config.memSize
  · rw [Memory.read_write _ _ _ _ hr, if_neg h]
  · simp [Memory.write, hr]

/-! ### runs of bytes -/

@[simp] theorem Memory.writeBytes_nil (m : Memory) (a : Nat) : Memory.writeBytes m a [] = m := rfl

@[simp] theorem Memory.length_readBytes (m : Memory) (a n : Nat) : (Memory.readBytes m a n).length = n := by
  induction n generalizing a with
  | zero => rfl
  | succ n ih => simp [Memory.readBytes, ih]

theorem Memory.getElem_readBytes (m : Memory) (a n k : Nat) (h : k < (Memory.readBytes m a n).length) :
    (Memory.readBytes m a n)[k] = Memory.read m (a + k) := by
  induction n generalizing a k with
  | zero => simp at h
  | succ n ih =>
    cases k with
    | zero => rfl
    | succ k =>
      simp only [Memory.readBytes, List.getElem_cons_succ]
      rw [ih]
      congr 1
      omega

/-- The bytes outside a run that is written are as they were. -/
theorem Memory.read_writeBytes_outside (m : Memory) (base : Nat) (bs : List Byte) (a : Nat)
    (h : a < base ∨ base + bs.length ≤ a) : Memory.read (Memory.writeBytes m base bs) a = Memory.read m a := by
  induction bs generalizing m base with
  | nil => rfl
  | cons b bs ih =>
    simp only [List.length_cons] at h
    rw [Memory.writeBytes, ih _ _ (by omega), Memory.read_write_other _ _ _ _ (by omega)]

/-- The k-th byte of a run written inside the space. -/
theorem Memory.read_writeBytes_inside (m : Memory) (base : Nat) (bs : List Byte) (k : Nat) (h : k < bs.length)
    (hr : base + bs.length ≤ Config.memSize) : Memory.read (Memory.writeBytes m base bs) (base + k) = bs[k] := by
  induction bs generalizing m base k with
  | nil => simp at h
  | cons b bs ih =>
    simp only [List.length_cons] at h hr
    rw [Memory.writeBytes]
    cases k with
    | zero =>
      rw [Memory.read_writeBytes_outside _ _ _ _ (by omega), Memory.read_write _ _ _ _ (by omega)]
      simp
    | succ k =>
      have := ih (Memory.write m base b) (base + 1) k (by omega) (by omega)
      rw [show base + (k + 1) = base + 1 + k by omega, this]
      rfl

/-! ### the canonical form -/

theorem Memory.wf_nil : Memory.wf [] := by simp [Memory.wf]

theorem Memory.wf_erase (m : Memory) (addr : Nat) (h : Memory.wf m) : Memory.wf (Memory.erase m addr) :=
  ⟨h.1.filter _, fun c hc => h.2 c ((Memory.mem_erase m addr c).1 hc).1⟩

theorem Memory.mem_insert (m : Memory) (addr : Nat) (b : Byte) (c : Host.Cell) :
    c ∈ Memory.insert m addr b ↔ c = (addr, b) ∨ c ∈ m := by
  induction m with
  | nil => simp [Memory.insert]
  | cons d m ih =>
    obtain ⟨k, e⟩ := d
    simp only [Memory.insert]
    split
    · simp only [List.mem_cons, ih]; tauto
    · simp

theorem Memory.wf_insert (m : Memory) (addr : Nat) (b : Byte) (h : Memory.wf m) (hr : addr < Config.memSize)
    (hb : b ≠ Config.resetByte) (hn : ∀ c ∈ m, c.1 ≠ addr) : Memory.wf (Memory.insert m addr b) := by
  refine ⟨?_, fun c hc => ?_⟩
  · obtain ⟨hs, -⟩ := h
    induction m with
    | nil => simp [Memory.insert]
    | cons d m ih =>
      obtain ⟨k, e⟩ := d
      simp only [List.mem_cons, forall_eq_or_imp] at hn
      rw [List.pairwise_cons] at hs
      simp only [Memory.insert]
      split
      · refine List.pairwise_cons.2 ⟨fun c hc => ?_, ih hn.2 hs.2⟩
        rcases (Memory.mem_insert m addr b c).1 hc with rfl | hc
        · assumption
        · exact hs.1 c hc
      · have hlt : addr < k := by omega
        refine List.pairwise_cons.2 ⟨fun c hc => ?_, List.pairwise_cons.2 hs⟩
        rcases List.mem_cons.1 hc with rfl | hc
        · exact hlt
        · exact lt_trans hlt (hs.1 c hc)
  · rcases (Memory.mem_insert m addr b c).1 hc with rfl | hc
    · exact ⟨hr, hb⟩
    · exact h.2 c hc

/-- Every byte write keeps the canonical form. -/
theorem Memory.wf_write (m : Memory) (addr : Nat) (b : Byte) (h : Memory.wf m) : Memory.wf (Memory.write m addr b) := by
  unfold Memory.write
  split
  · split
    · exact Memory.wf_erase m addr h
    · exact Memory.wf_insert _ _ _ (Memory.wf_erase m addr h) ‹_› ‹_› fun c hc => ((Memory.mem_erase m addr c).1 hc).2
  · exact h

/-- Every run of byte writes keeps the canonical form. -/
theorem Memory.wf_writeBytes (m : Memory) (base : Nat) (bs : List Byte) (h : Memory.wf m) :
    Memory.wf (Memory.writeBytes m base bs) := by
  induction bs generalizing m base with
  | nil => exact h
  | cons b bs ih => exact ih _ _ (Memory.wf_write m base b h)

/-- The memory at reset is in the canonical form. -/
theorem State.reset_mem_wf : Memory.wf State.reset.mem := Memory.wf_nil

end Sys2Proof.Machine
end

