-- ==== Sys2Proof/Laws/Ops.lean ====
section
/-! SUPPORT. One lemma for each shared operation that says everything it can do; proofs cite it and do not unfold. -/

namespace Sys2Proof.Machine

@[simp] theorem complete_eq (s : State) : complete s = .next s := rfl

@[simp] theorem completeFaulted_eq (f : Fault) (s : State) : completeFaulted f s = .next (s.raise f) := rfl

@[simp] theorem Config.memSize_eq : Config.memSize = 4096 := rfl

/-! ### memory access and fetch -/

/-- R52. -/
theorem memRead_eq (atPc : Word) (addr : Nat) (m : Memory) :
    memRead atPc addr m =
      if addr < 4096 then .ok (Memory.read m addr) else .error (.outOfBoundsAccess atPc (BitVec.ofNat 16 addr)) := rfl

/-- R91: everything a fetch can answer. -/
theorem State.fetch_cases (s : State) :
    (s.pc.toNat + 1 < 4096 ∧
      s.fetch = .ok (wordOfBytes (Memory.read s.mem s.pc.toNat) (Memory.read s.mem (s.pc.toNat + 1)))) ∨
    (s.pc.toNat = 4095 ∧ s.fetch = .error (.outOfBoundsAccess s.pc 0x1000#16)) ∨
    (4096 ≤ s.pc.toNat ∧ s.fetch = .error (.outOfBoundsAccess s.pc s.pc)) := by
  rcases Nat.lt_or_ge (s.pc.toNat + 1) 4096 with h | h
  · left
    have h0 : s.pc.toNat < 4096 := by omega
    refine ⟨h, ?_⟩
    simp [State.fetch, memRead_eq, h0, h]
  · right
    rcases Nat.lt_or_ge s.pc.toNat 4096 with h1 | h1
    · left
      have h2 : s.pc.toNat = 4095 := by omega
      refine ⟨h2, ?_⟩
      simp [State.fetch, memRead_eq, h2]
    · right
      refine ⟨h1, ?_⟩
      simp [State.fetch, memRead_eq, Nat.not_lt.2 h1]

/-! ### the call stack -/

/-- R29: everything a push can answer. -/
theorem State.push_cases (w : Word) (s : State) :
    (s.stack.length < s.stackDepth ∧ s.push w = some (s.setStack (w :: s.stack))) ∨
    (s.stackDepth ≤ s.stack.length ∧ s.push w = none) := by
  rcases Nat.lt_or_ge s.stack.length s.stackDepth with h | h
  · exact .inl ⟨h, by simp [State.push, h]⟩
  · exact .inr ⟨h, by simp [State.push, Nat.not_lt.2 h]⟩

/-- R30: everything a pop can answer. -/
theorem State.pop_cases (s : State) :
    (s.stack = [] ∧ s.pop = none) ∨
    (∃ w rest, s.stack = w :: rest ∧ s.pop = some (w, s.setStack rest)) := by
  unfold State.pop
  cases h : s.stack with
  | nil => exact .inl ⟨rfl, rfl⟩
  | cons w rest => exact .inr ⟨w, rest, rfl, rfl⟩

/-! ### the range check -/

/-- R143: everything a range check can answer. -/
theorem checkRange_cases (atPc base : Word) (m : Nat) :
    (base.toNat + m ≤ 4096 ∧ checkRange atPc base m = none) ∨
    (4096 < base.toNat + m ∧
      checkRange atPc base m = some (.outOfBoundsAccess atPc (BitVec.ofNat 16 (max base.toNat 4096)))) := by
  unfold checkRange
  rcases Nat.lt_or_ge (base.toNat + m - 1) 4096 with h | h
  · exact .inl ⟨by omega, by simp [Nat.not_le.2 h]⟩
  · exact .inr ⟨by omega, by simp [h]⟩

/-- R55, R143: everything an instruction that touches m bytes from I can do. -/
theorem withRange_cases (m : Nat) (effect : State → State) (s : State) :
    ((m = 0 ∨ s.i.toNat + m ≤ 4096) ∧ withRange m effect s = .next (effect s.advance)) ∨
    (0 < m ∧ 4096 < s.i.toNat + m ∧
      withRange m effect s =
        .next (s.advance.raise (.outOfBoundsAccess s.pc (BitVec.ofNat 16 (max s.i.toNat 4096))))) := by
  unfold withRange
  rcases Nat.eq_zero_or_pos m with rfl | hm
  · exact .inl ⟨.inl rfl, by simp⟩
  · rcases checkRange_cases s.pc s.i m with ⟨h, he⟩ | ⟨h, he⟩
    · exact .inl ⟨.inr h, by simp [hm, he]⟩
    · exact .inr ⟨hm, h, by simp [hm, he]⟩

/-- The address a range check reports lies outside the space. -/
theorem toNat_rangeAddr (base : Word) : 4096 ≤ (BitVec.ofNat 16 (max base.toNat 4096)).toNat := by
  rw [BitVec.toNat_ofNat]
  have := base.isLt
  omega

/-! ### the register block -/

@[simp] theorem State.length_regBlock (s : State) (x : Reg) : (s.regBlock x).length = x.toNat + 1 := by
  have := x.isLt
  simp only [State.regBlock, List.length_take, Vector.length_toList]
  omega

/-- The k-th byte Fx55 stores is Vk (R145). -/
theorem State.getElem_regBlock (s : State) (x : Reg) (k : Reg) (h : k.toNat < (s.regBlock x).length) :
    (s.regBlock x)[k.toNat] = s.getV k := by
  simp [State.regBlock, State.getV]

/-- Filling registers from Vk up: Vj takes the (j - k)-th byte where there is one, and keeps its value elsewhere (R146). -/
theorem getElem_fillRegs (v : Vector Byte 16) (k : Nat) (bs : List Byte) (j : Nat) (hj : j < 16) :
    (fillRegs v k bs)[j] = if h : k ≤ j ∧ j < k + bs.length then bs[j - k]'(by omega) else v[j] := by
  induction bs generalizing v k with
  | nil =>
    simp [fillRegs]
  | cons b bs ih =>
    rw [fillRegs, ih]
    simp only [List.length_cons]
    by_cases h1 : k + 1 ≤ j ∧ j < k + 1 + bs.length
    · have h2 : k ≤ j ∧ j < k + (bs.length + 1) := by omega
      rw [dif_pos h1, dif_pos h2, List.getElem_cons, dif_neg (by omega)]
      congr 1
    · rw [dif_neg h1]
      by_cases h3 : k = j
      · subst h3
        simp
      · have h2 : ¬ (k ≤ j ∧ j < k + (bs.length + 1)) := by omega
        rw [dif_neg h2, Vector.getElem_setIfInBounds_ne (h := h3)]

/-- R146 read back: Vk is the byte at I + k for k up to x, and unchanged above. -/
theorem State.getV_loadBlock (s : State) (x y : Reg) :
    (State.loadBlock x s).getV y =
      if y.toNat ≤ x.toNat then Memory.read s.mem (s.i.toNat + y.toNat) else s.getV y := by
  have hy : y.toNat < 16 := y.isLt
  show (fillRegs s.v 0 (Memory.readBytes s.mem (s.i.toNat + 0) (x.toNat + 1)))[y.toNat] = _
  rw [getElem_fillRegs _ _ _ _ hy]
  simp only [Memory.length_readBytes, Nat.zero_le, true_and, Nat.zero_add, Nat.sub_zero, Nat.add_zero]
  by_cases h : y.toNat ≤ x.toNat
  · rw [dif_pos (by omega), if_pos h, Memory.getElem_readBytes]
  · rw [dif_neg (by omega), if_neg h]
    rfl

/-- R146: only V is written. -/
theorem State.loadBlock_eq (s : State) (x : Reg) :
    State.loadBlock x s = s.setRegs (State.loadBlock x s).v := rfl

/-! ### steps that fetch nothing -/

/-- R173: everything a pending key wait can do. -/
theorem keyWait_cases (x : Reg) (s : State) :
    (s.key = none ∧ keyWait x s = .next s) ∨
    (∃ k, s.key = some k ∧ keyWait x s = .next ((s.setV x (k.setWidth 8)).setStatus .running)) := by
  unfold keyWait
  cases h : s.key with
  | none => exact .inl ⟨rfl, rfl⟩
  | some k => exact .inr ⟨k, rfl, rfl⟩

/-! ### the framebuffer -/

theorem Framebuffer.pixel_setPixel (fb : Framebuffer) (r r' : Fin 32) (c c' : Fin 64) (p : Bool) :
    (fb.setPixel r c p).pixel r' c' = if r = r' ∧ c = c' then p else fb.pixel r' c' := by
  obtain ⟨r, hr⟩ := r
  obtain ⟨r', hr'⟩ := r'
  obtain ⟨c, hc⟩ := c
  obtain ⟨c', hc'⟩ := c'
  simp only [Framebuffer.pixel, Framebuffer.setPixel, Fin.getElem_fin, Vector.getElem_set, Fin.mk.injEq]
  by_cases h1 : r = r'
  · subst h1
    by_cases h2 : c = c' <;> simp [h2]
  · simp [h1]

@[simp] theorem Framebuffer.pixel_clear (r : Fin 32) (c : Fin 64) : Framebuffer.clear.pixel r c = false := by
  simp [Framebuffer.pixel, Framebuffer.clear]

/-- Two framebuffers with the same pixels are equal. -/
theorem Framebuffer.ext_pixel {a b : Framebuffer} (h : ∀ r c, a.pixel r c = b.pixel r c) : a = b := by
  apply Vector.ext
  intro r hr
  apply Vector.ext
  intro c hc
  exact h ⟨r, hr⟩ ⟨c, hc⟩

/-- One sprite bit read back. -/
theorem pixel_blitPixel (r r' : Fin 32) (c c' : Fin 64) (b : Bool) (acc : Blitted) :
    (blitPixel r c b acc).1.pixel r' c' = (acc.1.pixel r' c' ^^ (decide (r = r' ∧ c = c') && b)) := by
  simp only [blitPixel, Framebuffer.pixel_setPixel]
  by_cases h : r = r' ∧ c = c'
  · obtain ⟨rfl, rfl⟩ := h
    simp
  · simp [h]

end Sys2Proof.Machine
end

