-- ==== Sys2Proof/Laws/PerInstr.lean ====
section
/-! SUPPORT. The family Encoding: every instruction's word matches its own row of R75, and that row builds the instruction
back from the word's fields. -/

namespace Sys2Proof.Laws.Encoding

/-- The word of the instruction matches a row of the decode table whose build gives the instruction back. -/
def Statement (i : Instr) : Prop :=
  ∃ r ∈ decodeTable, rowMatches (encode i) r = true ∧ r.build (fieldsOf (encode i)) = i

/-- A row of the table whose pattern is the word under its mask. -/
theorem of_row {i : Instr} (k : Nat) (hk : k < decodeTable.length)
    (hm : encode i &&& decodeTable[k].mask = decodeTable[k].pattern)
    (hb : decodeTable[k].build (fieldsOf (encode i)) = i) : Statement i :=
  ⟨decodeTable[k], List.getElem_mem hk, by simp [rowMatches, hm], hb⟩

theorem halt : Statement .halt :=
  of_row 0 (by decide) (by decide) rfl

theorem cls : Statement .cls :=
  of_row 1 (by decide) (by decide) rfl

theorem ret : Statement .ret :=
  of_row 2 (by decide) (by decide) rfl

theorem jp (nnn : Addr12) : Statement (.jp nnn) :=
  of_row 3 (by decide) ((mask_encodeA _ _).trans (by decide)) (congrArg Instr.jp (nnn_encodeA _ _))

theorem call (nnn : Addr12) : Statement (.call nnn) :=
  of_row 4 (by decide) ((mask_encodeA _ _).trans (by decide)) (congrArg Instr.call (nnn_encodeA _ _))

theorem seImm (x : Reg) (nn : Byte) : Statement (.seImm x nn) :=
  of_row 5 (by decide) ((mask_encodeXN_top _ _ _).trans (by decide)) (congrArg₂ Instr.seImm (x_encodeXN _ _ _) (nn_encodeXN _ _ _))

theorem sneImm (x : Reg) (nn : Byte) : Statement (.sneImm x nn) :=
  of_row 6 (by decide) ((mask_encodeXN_top _ _ _).trans (by decide)) (congrArg₂ Instr.sneImm (x_encodeXN _ _ _) (nn_encodeXN _ _ _))

theorem seReg (x : Reg) (y : Reg) : Statement (.seReg x y) :=
  of_row 7 (by decide) ((mask_encodeXY_low _ _ _ _).trans (by decide)) (congrArg₂ Instr.seReg (x_encodeXY _ _ _ _) (y_encodeXY _ _ _ _))

theorem ldImm (x : Reg) (nn : Byte) : Statement (.ldImm x nn) :=
  of_row 8 (by decide) ((mask_encodeXN_top _ _ _).trans (by decide)) (congrArg₂ Instr.ldImm (x_encodeXN _ _ _) (nn_encodeXN _ _ _))

theorem addImm (x : Reg) (nn : Byte) : Statement (.addImm x nn) :=
  of_row 9 (by decide) ((mask_encodeXN_top _ _ _).trans (by decide)) (congrArg₂ Instr.addImm (x_encodeXN _ _ _) (nn_encodeXN _ _ _))

theorem ldReg (x : Reg) (y : Reg) : Statement (.ldReg x y) :=
  of_row 10 (by decide) ((mask_encodeXY_low _ _ _ _).trans (by decide)) (congrArg₂ Instr.ldReg (x_encodeXY _ _ _ _) (y_encodeXY _ _ _ _))

theorem orReg (x : Reg) (y : Reg) : Statement (.orReg x y) :=
  of_row 11 (by decide) ((mask_encodeXY_low _ _ _ _).trans (by decide)) (congrArg₂ Instr.orReg (x_encodeXY _ _ _ _) (y_encodeXY _ _ _ _))

theorem andReg (x : Reg) (y : Reg) : Statement (.andReg x y) :=
  of_row 12 (by decide) ((mask_encodeXY_low _ _ _ _).trans (by decide)) (congrArg₂ Instr.andReg (x_encodeXY _ _ _ _) (y_encodeXY _ _ _ _))

theorem xorReg (x : Reg) (y : Reg) : Statement (.xorReg x y) :=
  of_row 13 (by decide) ((mask_encodeXY_low _ _ _ _).trans (by decide)) (congrArg₂ Instr.xorReg (x_encodeXY _ _ _ _) (y_encodeXY _ _ _ _))

theorem addReg (x : Reg) (y : Reg) : Statement (.addReg x y) :=
  of_row 14 (by decide) ((mask_encodeXY_low _ _ _ _).trans (by decide)) (congrArg₂ Instr.addReg (x_encodeXY _ _ _ _) (y_encodeXY _ _ _ _))

theorem subReg (x : Reg) (y : Reg) : Statement (.subReg x y) :=
  of_row 15 (by decide) ((mask_encodeXY_low _ _ _ _).trans (by decide)) (congrArg₂ Instr.subReg (x_encodeXY _ _ _ _) (y_encodeXY _ _ _ _))

theorem shr (x : Reg) (y : Reg) : Statement (.shr x y) :=
  of_row 16 (by decide) ((mask_encodeXY_low _ _ _ _).trans (by decide)) (congrArg₂ Instr.shr (x_encodeXY _ _ _ _) (y_encodeXY _ _ _ _))

theorem subnReg (x : Reg) (y : Reg) : Statement (.subnReg x y) :=
  of_row 17 (by decide) ((mask_encodeXY_low _ _ _ _).trans (by decide)) (congrArg₂ Instr.subnReg (x_encodeXY _ _ _ _) (y_encodeXY _ _ _ _))

theorem shl (x : Reg) (y : Reg) : Statement (.shl x y) :=
  of_row 18 (by decide) ((mask_encodeXY_low _ _ _ _).trans (by decide)) (congrArg₂ Instr.shl (x_encodeXY _ _ _ _) (y_encodeXY _ _ _ _))

theorem sneReg (x : Reg) (y : Reg) : Statement (.sneReg x y) :=
  of_row 19 (by decide) ((mask_encodeXY_low _ _ _ _).trans (by decide)) (congrArg₂ Instr.sneReg (x_encodeXY _ _ _ _) (y_encodeXY _ _ _ _))

theorem ldI (nnn : Addr12) : Statement (.ldI nnn) :=
  of_row 20 (by decide) ((mask_encodeA _ _).trans (by decide)) (congrArg Instr.ldI (nnn_encodeA _ _))

theorem jpV0 (nnn : Addr12) : Statement (.jpV0 nnn) :=
  of_row 21 (by decide) ((mask_encodeA _ _).trans (by decide)) (congrArg Instr.jpV0 (nnn_encodeA _ _))

theorem rnd (x : Reg) (nn : Byte) : Statement (.rnd x nn) :=
  of_row 22 (by decide) ((mask_encodeXN_top _ _ _).trans (by decide)) (congrArg₂ Instr.rnd (x_encodeXN _ _ _) (nn_encodeXN _ _ _))

theorem drw (x : Reg) (y : Reg) (n : Nibble) : Statement (.drw x y n) :=
  of_row 23 (by decide) ((mask_encodeXY_top _ _ _ _).trans (by decide)) (by
    show Instr.drw _ _ _ = _
    rw [encode, x_encodeXY, y_encodeXY, n_encodeXY])

theorem skp (x : Reg) : Statement (.skp x) :=
  of_row 24 (by decide) ((mask_encodeXN_low _ _ _).trans (by decide)) (congrArg Instr.skp (x_encodeXN _ _ _))

theorem sknp (x : Reg) : Statement (.sknp x) :=
  of_row 25 (by decide) ((mask_encodeXN_low _ _ _).trans (by decide)) (congrArg Instr.sknp (x_encodeXN _ _ _))

theorem ldVxDt (x : Reg) : Statement (.ldVxDt x) :=
  of_row 26 (by decide) ((mask_encodeXN_low _ _ _).trans (by decide)) (congrArg Instr.ldVxDt (x_encodeXN _ _ _))

theorem ldVxK (x : Reg) : Statement (.ldVxK x) :=
  of_row 27 (by decide) ((mask_encodeXN_low _ _ _).trans (by decide)) (congrArg Instr.ldVxK (x_encodeXN _ _ _))

theorem ldDtVx (x : Reg) : Statement (.ldDtVx x) :=
  of_row 28 (by decide) ((mask_encodeXN_low _ _ _).trans (by decide)) (congrArg Instr.ldDtVx (x_encodeXN _ _ _))

theorem ldStVx (x : Reg) : Statement (.ldStVx x) :=
  of_row 29 (by decide) ((mask_encodeXN_low _ _ _).trans (by decide)) (congrArg Instr.ldStVx (x_encodeXN _ _ _))

theorem addIVx (x : Reg) : Statement (.addIVx x) :=
  of_row 30 (by decide) ((mask_encodeXN_low _ _ _).trans (by decide)) (congrArg Instr.addIVx (x_encodeXN _ _ _))

theorem ldFVx (x : Reg) : Statement (.ldFVx x) :=
  of_row 31 (by decide) ((mask_encodeXN_low _ _ _).trans (by decide)) (congrArg Instr.ldFVx (x_encodeXN _ _ _))

theorem ldBVx (x : Reg) : Statement (.ldBVx x) :=
  of_row 32 (by decide) ((mask_encodeXN_low _ _ _).trans (by decide)) (congrArg Instr.ldBVx (x_encodeXN _ _ _))

theorem storeRegs (x : Reg) : Statement (.storeRegs x) :=
  of_row 33 (by decide) ((mask_encodeXN_low _ _ _).trans (by decide)) (congrArg Instr.storeRegs (x_encodeXN _ _ _))

theorem loadRegs (x : Reg) : Statement (.loadRegs x) :=
  of_row 34 (by decide) ((mask_encodeXN_low _ _ _).trans (by decide)) (congrArg Instr.loadRegs (x_encodeXN _ _ _))

end Sys2Proof.Laws.Encoding
end

