-- ==== Sys2Proof/Laws/Step.lean ====
section
/-! SUPPORT. What a step can do, said once, and what each meaning is in terms of the named updates. -/

namespace Sys2Proof.Machine

/-! ### the step -/

/-- R90, R188: everything a step can do, whatever gives the instructions their meaning. -/
theorem stepBy_cases (run : Instr → State → Result) (s : State) :
    ((s.status = .halted ∨ ∃ f, s.status = .faulted f) ∧ stepBy run s = .next s) ∨
    (∃ x, s.status = .waiting x ∧ stepBy run s = keyWait x s) ∨
    (s.status = .running ∧
      ((∃ f, s.fetch = .error f ∧ stepBy run s = .next (s.raise f)) ∨
       (∃ op i, s.fetch = .ok op ∧ decodeWord op = .ok i ∧ stepBy run s = run i s) ∨
       (∃ op, s.fetch = .ok op ∧ decodeWord op = .error (.unknownOpcode op) ∧
         stepBy run s = .next (s.advance.raise (.unknownOpcode s.pc op))))) := by
  unfold stepBy
  cases hs : s.status with
  | halted => exact .inl ⟨.inl rfl, rfl⟩
  | faulted f => exact .inl ⟨.inr ⟨f, rfl⟩, rfl⟩
  | waiting x => exact .inr (.inl ⟨x, rfl, rfl⟩)
  | running =>
    refine .inr (.inr ⟨rfl, ?_⟩)
    simp only [fetchDecodeExecute]
    cases hf : s.fetch with
    | error f => exact .inl ⟨f, rfl, rfl⟩
    | ok op =>
      right
      simp only
      rcases decodeWord_cases op with ⟨r, -, -, hd⟩ | ⟨-, hd⟩
      · exact .inl ⟨op, _, rfl, hd, by rw [hd]⟩
      · exact .inr ⟨op, rfl, hd, by rw [hd]; rfl⟩

/-- R90, R188: everything a step can do. -/
theorem step_cases (s : State) :
    ((s.status = .halted ∨ ∃ f, s.status = .faulted f) ∧ step s = .next s) ∨
    (∃ x, s.status = .waiting x ∧ step s = keyWait x s) ∨
    (s.status = .running ∧
      ((∃ f, s.fetch = .error f ∧ step s = .next (s.raise f)) ∨
       (∃ op i, s.fetch = .ok op ∧ decodeWord op = .ok i ∧ step s = exec i s) ∨
       (∃ op, s.fetch = .ok op ∧ decodeWord op = .error (.unknownOpcode op) ∧
         step s = .next (s.advance.raise (.unknownOpcode s.pc op))))) :=
  stepBy_cases exec s

/-- R90, R188, R196: everything a step with a given random byte can do. -/
theorem stepGiven_cases (r : Byte) (s : State) :
    ((s.status = .halted ∨ ∃ f, s.status = .faulted f) ∧ stepGiven r s = .next s) ∨
    (∃ x, s.status = .waiting x ∧ stepGiven r s = keyWait x s) ∨
    (s.status = .running ∧
      ((∃ f, s.fetch = .error f ∧ stepGiven r s = .next (s.raise f)) ∨
       (∃ op i, s.fetch = .ok op ∧ decodeWord op = .ok i ∧ stepGiven r s = execGiven r i s) ∨
       (∃ op, s.fetch = .ok op ∧ decodeWord op = .error (.unknownOpcode op) ∧
         stepGiven r s = .next (s.advance.raise (.unknownOpcode s.pc op))))) :=
  stepBy_cases (execGiven r) s

@[simp] theorem execGiven_rnd (r : Byte) (x : Reg) (nn : Byte) (s : State) :
    execGiven r (.rnd x nn) s = .next (s.advance.countDraw.setV x (r &&& nn)) := rfl

/-- The given byte reaches Cxnn only. -/
theorem execGiven_other (r : Byte) (i : Instr) (s : State) (h : ∀ x nn, i ≠ .rnd x nn) : execGiven r i s = exec i s := by
  cases i <;> first | rfl | exact absurd rfl (h _ _)

/-- `exec` is the meaning at the free byte (log entry 2). -/
theorem execGiven_nextRandom (i : Instr) (s : State) : execGiven s.nextRandom i s = exec i s := by
  cases i <;> rfl

/-! ### the meanings that always take the same path -/

@[simp] theorem exec_halt (s : State) :
    exec .halt s = .next (s.halt) := rfl

@[simp] theorem exec_cls (s : State) :
    exec .cls s = .next (s.advance.setFb Framebuffer.clear) := rfl

@[simp] theorem exec_jp (nnn : Addr12) (s : State) :
    exec (.jp nnn) s = .next (s.advance.setPc (zextAddr nnn)) := rfl

@[simp] theorem exec_jpV0 (nnn : Addr12) (s : State) :
    exec (.jpV0 nnn) s = .next (s.advance.setPc (zextAddr nnn + (s.getV 0x0#4).setWidth 16)) := rfl

@[simp] theorem exec_seImm (x : Reg) (nn : Byte) (s : State) :
    exec (.seImm x nn) s = .next (s.advance.skipIf (s.getV x == nn)) := rfl

@[simp] theorem exec_sneImm (x : Reg) (nn : Byte) (s : State) :
    exec (.sneImm x nn) s = .next (s.advance.skipIf (s.getV x != nn)) := rfl

@[simp] theorem exec_seReg (x : Reg) (y : Reg) (s : State) :
    exec (.seReg x y) s = .next (s.advance.skipIf (s.getV x == s.getV y)) := rfl

@[simp] theorem exec_sneReg (x : Reg) (y : Reg) (s : State) :
    exec (.sneReg x y) s = .next (s.advance.skipIf (s.getV x != s.getV y)) := rfl

@[simp] theorem exec_ldImm (x : Reg) (nn : Byte) (s : State) :
    exec (.ldImm x nn) s = .next (s.advance.setV x nn) := rfl

@[simp] theorem exec_addImm (x : Reg) (nn : Byte) (s : State) :
    exec (.addImm x nn) s = .next (s.advance.setV x (BitVec.ofNat 8 ((s.getV x).toNat + nn.toNat))) := rfl

@[simp] theorem exec_ldReg (x : Reg) (y : Reg) (s : State) :
    exec (.ldReg x y) s = .next (s.advance.setV x (s.getV y)) := rfl

@[simp] theorem exec_orReg (x : Reg) (y : Reg) (s : State) :
    exec (.orReg x y) s = .next (s.advance.setV x (s.getV x ||| s.getV y)) := rfl

@[simp] theorem exec_andReg (x : Reg) (y : Reg) (s : State) :
    exec (.andReg x y) s = .next (s.advance.setV x (s.getV x &&& s.getV y)) := rfl

@[simp] theorem exec_xorReg (x : Reg) (y : Reg) (s : State) :
    exec (.xorReg x y) s = .next (s.advance.setV x (s.getV x ^^^ s.getV y)) := rfl

@[simp] theorem exec_addReg (x : Reg) (y : Reg) (s : State) :
    exec (.addReg x y) s = .next (s.advance.setResultAndFlag x (BitVec.ofNat 8 ((s.getV x).toNat + (s.getV y).toNat))
      (carryFlag (s.getV x) (s.getV y))) := rfl

@[simp] theorem exec_subReg (x : Reg) (y : Reg) (s : State) :
    exec (.subReg x y) s = .next (s.advance.setResultAndFlag x (subByte (s.getV x) (s.getV y))
      (noBorrowFlag (s.getV x) (s.getV y))) := rfl

@[simp] theorem exec_shr (x : Reg) (y : Reg) (s : State) :
    exec (.shr x y) s = .next (s.advance.setResultAndFlag x (s.getV x >>> 1) (shiftedOutRight (s.getV x))) := rfl

@[simp] theorem exec_subnReg (x : Reg) (y : Reg) (s : State) :
    exec (.subnReg x y) s = .next (s.advance.setResultAndFlag x (subByte (s.getV y) (s.getV x))
      (noBorrowFlag (s.getV y) (s.getV x))) := rfl

@[simp] theorem exec_shl (x : Reg) (y : Reg) (s : State) :
    exec (.shl x y) s = .next (s.advance.setResultAndFlag x (s.getV x <<< 1) (shiftedOutLeft (s.getV x))) := rfl

@[simp] theorem exec_rnd (x : Reg) (nn : Byte) (s : State) :
    exec (.rnd x nn) s = .next (s.advance.countDraw.setV x (s.nextRandom &&& nn)) := rfl

@[simp] theorem exec_ldI (nnn : Addr12) (s : State) :
    exec (.ldI nnn) s = .next (s.advance.setI (zextAddr nnn)) := rfl

@[simp] theorem exec_addIVx (x : Reg) (s : State) :
    exec (.addIVx x) s = .next (s.advance.setI (BitVec.ofNat 16 (s.i.toNat + (s.getV x).toNat))) := rfl

@[simp] theorem exec_ldFVx (x : Reg) (s : State) :
    exec (.ldFVx x) s = .next (s.advance.setI (BitVec.ofNat 16 (Config.fontBase + (s.getV x).toNat * Config.glyphBytes))) := rfl

@[simp] theorem exec_skp (x : Reg) (s : State) :
    exec (.skp x) s = .next (s.advance.skipIf (s.isPressed (s.getV x))) := rfl

@[simp] theorem exec_sknp (x : Reg) (s : State) :
    exec (.sknp x) s = .next (s.advance.skipIf (! s.isPressed (s.getV x))) := rfl

@[simp] theorem exec_ldVxDt (x : Reg) (s : State) :
    exec (.ldVxDt x) s = .next (s.advance.setV x s.dt) := rfl

@[simp] theorem exec_ldVxK (x : Reg) (s : State) :
    exec (.ldVxK x) s = .next (s.advance.setStatus (.waiting x)) := rfl

@[simp] theorem exec_ldDtVx (x : Reg) (s : State) :
    exec (.ldDtVx x) s = .next (s.advance.setDt (s.getV x)) := rfl

@[simp] theorem exec_ldStVx (x : Reg) (s : State) :
    exec (.ldStVx x) s = .next (s.advance.setSt (s.getV x)) := rfl

/-! ### the meanings with a fault of their own -/

/-- R100: everything 00EE can do. -/
theorem exec_ret_cases (s : State) :
    (s.stack = [] ∧ exec .ret s = .next (s.advance.raise (.stackUnderflow s.pc))) ∨
    (∃ w rest, s.stack = w :: rest ∧ exec .ret s = .next ((s.advance.setStack rest).setPc w)) := by
  show (_ ∧ execRet s = _) ∨ (∃ w rest, _ ∧ execRet s = _)
  unfold execRet
  rcases s.advance.pop_cases with ⟨h, hp⟩ | ⟨w, rest, h, hp⟩
  · exact .inl ⟨h, by rw [hp]; rfl⟩
  · exact .inr ⟨w, rest, h, by rw [hp]; rfl⟩

/-- R102: everything 2nnn can do, at every capacity. -/
theorem exec_call_cases (nnn : Addr12) (s : State) :
    (s.stack.length < s.stackDepth ∧
      exec (.call nnn) s = .next ((s.advance.setStack ((s.pc + 2#16) :: s.stack)).setPc (zextAddr nnn))) ∨
    (s.stackDepth ≤ s.stack.length ∧ exec (.call nnn) s = .next (s.advance.raise (.stackOverflow s.pc))) := by
  show (_ ∧ execCall nnn s = _) ∨ (_ ∧ execCall nnn s = _)
  unfold execCall
  rcases s.advance.push_cases s.advance.pc with ⟨h, hp⟩ | ⟨h, hp⟩
  · exact .inl ⟨h, by rw [hp]; rfl⟩
  · exact .inr ⟨h, by rw [hp]; rfl⟩

theorem exec_ldBVx (x : Reg) (s : State) :
    exec (.ldBVx x) s = withRange 3 (fun t => t.storeAtI (bcdDigits (t.getV x))) s := rfl

theorem exec_storeRegs (x : Reg) (s : State) :
    exec (.storeRegs x) s = withRange (x.toNat + 1) (fun t => t.storeAtI (t.regBlock x)) s := rfl

theorem exec_loadRegs (x : Reg) (s : State) :
    exec (.loadRegs x) s = withRange (x.toNat + 1) (State.loadBlock x) s := rfl

theorem exec_drw (x y : Reg) (n : Nibble) (s : State) :
    exec (.drw x y n) s = withRange n.toNat (State.drawSprite x y n) s := rfl

end Sys2Proof.Machine
end

