-- ==== Sys2Proof/Tests/Slice0.lean ====
section
/-! SUPPORT. The model's own tests: decoding words written out from the spec's encodings, the checks of WellFormed, the vectors
of 95_test_vectors.md (each named in its comment), and for every statement with hypotheses a state that meets them. -/

open Sys2Proof Sys2Proof.Machine

namespace Sys2Proof.Tests

/-- The state an answer carries. -/
def stateOf : Result → Option State
  | .next s => some s
  | .fault _ => none
  | .refused _ => none

/-- One step with a word placed at pc. -/
def stepWord (w : Nat) (s : State) : Option State :=
  stateOf (step (s.withFetchWord 16 w))

/-- The reset state with two registers set. -/
def withRegs (x : Reg) (a : Byte) (y : Reg) (b : Byte) : State :=
  (State.reset.setV x a).setV y b

/-- The reset state with bytes in memory and I at them. -/
def withBytes (base : Word) (bs : List Byte) : State :=
  (State.reset.setI base).setMem (Memory.writeBytes [] base.toNat bs)

/-- Fault records of a state, if it is faulted. -/
def faultOf (s : State) : Option Fault :=
  match s.status with
  | .faulted f => some f
  | .running => none
  | .waiting _ => none
  | .halted => none

/-! ## WellFormed: an ill-formed term for each check, refused -/

theorem test_illFormedWord_top0 : wellFormedWord 0x0123#16 = false := by decide
theorem test_illFormedWord_top5 : wellFormedWord 0x5121#16 = false := by decide
theorem test_illFormedWord_top8 : wellFormedWord 0x8128#16 = false := by decide
theorem test_illFormedWord_top9 : wellFormedWord 0x9121#16 = false := by decide
theorem test_illFormedWord_topE : wellFormedWord 0xE0A2#16 = false := by decide
theorem test_illFormedWord_topF : wellFormedWord 0xF0FF#16 = false := by decide
theorem test_wellFormedWord_open : wellFormedWord 0xDFFF#16 = true := by decide
theorem test_illFormedImage : wellFormedImage (List.replicate 3585 0x60#8) = false := by
  rw [wellFormedImage, List.length_replicate]; decide
theorem test_wellFormedImage_full : wellFormedImage (List.replicate 3584 0x60#8) = true := by
  rw [wellFormedImage, List.length_replicate]; decide

/-! ## Decoding: each constructor's word, written out from R74 and R75 -/

theorem test_decode_halt : decodeWord 0b0000_0000_0000_0000#16 = .ok (.halt) := by rfl
theorem test_decode_cls : decodeWord 0b0000_0000_1110_0000#16 = .ok (.cls) := by rfl
theorem test_decode_ret : decodeWord 0b0000_0000_1110_1110#16 = .ok (.ret) := by rfl
theorem test_decode_jp : decodeWord 0b0001_0010_0011_0100#16 = .ok (.jp 0x234#12) := by rfl
theorem test_decode_call : decodeWord 0b0010_0010_0001_0000#16 = .ok (.call 0x210#12) := by rfl
theorem test_decode_seImm : decodeWord 0b0011_0011_0100_0010#16 = .ok (.seImm 0x3#4 0x42#8) := by rfl
theorem test_decode_sneImm : decodeWord 0b0100_0011_0100_0010#16 = .ok (.sneImm 0x3#4 0x42#8) := by rfl
theorem test_decode_seReg : decodeWord 0b0101_0001_0010_0000#16 = .ok (.seReg 0x1#4 0x2#4) := by rfl
theorem test_decode_ldImm : decodeWord 0b0110_1010_0010_1011#16 = .ok (.ldImm 0xA#4 0x2B#8) := by rfl
theorem test_decode_addImm : decodeWord 0b0111_0000_0000_0001#16 = .ok (.addImm 0x0#4 0x01#8) := by rfl
theorem test_decode_ldReg : decodeWord 0b1000_0001_0010_0000#16 = .ok (.ldReg 0x1#4 0x2#4) := by rfl
theorem test_decode_orReg : decodeWord 0b1000_0001_0010_0001#16 = .ok (.orReg 0x1#4 0x2#4) := by rfl
theorem test_decode_andReg : decodeWord 0b1000_0001_0010_0010#16 = .ok (.andReg 0x1#4 0x2#4) := by rfl
theorem test_decode_xorReg : decodeWord 0b1000_0001_0010_0011#16 = .ok (.xorReg 0x1#4 0x2#4) := by rfl
theorem test_decode_addReg : decodeWord 0b1000_1111_0001_0100#16 = .ok (.addReg 0xF#4 0x1#4) := by rfl
theorem test_decode_subReg : decodeWord 0b1000_0001_0010_0101#16 = .ok (.subReg 0x1#4 0x2#4) := by rfl
theorem test_decode_shr : decodeWord 0b1000_0100_1010_0110#16 = .ok (.shr 0x4#4 0xA#4) := by rfl
theorem test_decode_subnReg : decodeWord 0b1000_0001_0010_0111#16 = .ok (.subnReg 0x1#4 0x2#4) := by rfl
theorem test_decode_shl : decodeWord 0b1000_0100_0000_1110#16 = .ok (.shl 0x4#4 0x0#4) := by rfl
theorem test_decode_sneReg : decodeWord 0b1001_0001_0010_0000#16 = .ok (.sneReg 0x1#4 0x2#4) := by rfl
theorem test_decode_ldI : decodeWord 0b1010_0010_1111_0000#16 = .ok (.ldI 0x2F0#12) := by rfl
theorem test_decode_jpV0 : decodeWord 0b1011_0011_0000_0000#16 = .ok (.jpV0 0x300#12) := by rfl
theorem test_decode_rnd : decodeWord 0b1100_0011_0000_1111#16 = .ok (.rnd 0x3#4 0x0F#8) := by rfl
theorem test_decode_drw : decodeWord 0b1101_1111_0001_0010#16 = .ok (.drw 0xF#4 0x1#4 0x2#4) := by rfl
theorem test_decode_skp : decodeWord 0b1110_0010_1001_1110#16 = .ok (.skp 0x2#4) := by rfl
theorem test_decode_sknp : decodeWord 0b1110_0010_1010_0001#16 = .ok (.sknp 0x2#4) := by rfl
theorem test_decode_ldVxDt : decodeWord 0b1111_0001_0000_0111#16 = .ok (.ldVxDt 0x1#4) := by rfl
theorem test_decode_ldVxK : decodeWord 0b1111_0011_0000_1010#16 = .ok (.ldVxK 0x3#4) := by rfl
theorem test_decode_ldDtVx : decodeWord 0b1111_0001_0001_0101#16 = .ok (.ldDtVx 0x1#4) := by rfl
theorem test_decode_ldStVx : decodeWord 0b1111_0001_0001_1000#16 = .ok (.ldStVx 0x1#4) := by rfl
theorem test_decode_addIVx : decodeWord 0b1111_0010_0001_1110#16 = .ok (.addIVx 0x2#4) := by rfl
theorem test_decode_ldFVx : decodeWord 0b1111_0101_0010_1001#16 = .ok (.ldFVx 0x5#4) := by rfl
theorem test_decode_ldBVx : decodeWord 0b1111_0000_0011_0011#16 = .ok (.ldBVx 0x0#4) := by rfl
theorem test_decode_storeRegs : decodeWord 0b1111_0010_0101_0101#16 = .ok (.storeRegs 0x2#4) := by rfl
theorem test_decode_loadRegs : decodeWord 0b1111_0010_0110_0101#16 = .ok (.loadRegs 0x2#4) := by rfl

/-- F15, S7: words that only differ from an instruction in a fixed bit are rejected by name. -/
theorem test_decode_unknown : decodeWord 0x5121#16 = .error (.unknownOpcode 0x5121#16) ∧
    decodeWord 0x0123#16 = .error (.unknownOpcode 0x0123#16) := ⟨rfl, rfl⟩

/-- R70: one byte is no instruction. -/
theorem test_decode_truncated : decodeBytes [0x60#8] = .error .truncated := rfl

/-- R56: the first byte is the high byte. -/
theorem test_decodeBytes : decodeBytes [0x62#8, 0x01#8, 0x00#8] = .ok (.ldImm 0x2#4 0x01#8, [0x00#8]) := rfl

/-- The host's numbering of a table row's bits. -/
theorem test_decodeTableWord : decodeTableWord 16 0xF265 = some (.loadRegs 0x2#4) := rfl

/-! ## Steps: vectors of 95_test_vectors.md -/

/-- S1. -/
theorem test_halt_keeps_pc :
    (stepWord 0x0000 (State.reset)).map (fun t => (t.status, t.pc)) =
      some (.halted, 0x200#16) := by decide

/-- S2. -/
theorem test_halted_stays :
    (stateOf (step State.reset.halt)).map (fun t => (t.status, t.pc)) =
      some (.halted, 0x200#16) := by decide

/-- S3. -/
theorem test_fetch_at_end_faults :
    (stateOf (step (State.reset.setPc 0x0FFF#16))).map (fun t => (faultOf t, t.pc)) =
      some (some (.outOfBoundsAccess 0x0FFF#16 0x1000#16), 0x0FFF#16) := by decide

/-- S4. -/
theorem test_fetch_outside_faults :
    (stateOf (step (State.reset.setPc 0x1000#16))).map (fun t => (faultOf t, t.pc)) =
      some (some (.outOfBoundsAccess 0x1000#16 0x1000#16), 0x1000#16) := by decide

/-- S6. -/
theorem test_unknown_latches :
    (stepWord 0x00E1 (State.reset)).map (fun t => (faultOf t, t.pc)) =
      some (some (.unknownOpcode 0x200#16 0x00E1#16), 0x202#16) := by decide

/-- S12. -/
theorem test_odd_pc_fetches :
    (stepWord 0x6042 (State.reset.setPc 0x201#16)).map (fun t => (t.getV 0x0#4, t.pc)) =
      some (0x42#8, 0x203#16) := by decide

/-- D1. -/
theorem test_cls :
    (stepWord 0x00E0 (State.reset.setFb ((Framebuffer.clear.setPixel 0 0 true).setPixel 31 63 true))).map (fun t =>
      (t.fb.pixel 0 0, t.fb.pixel 31 63)) =
      some (false, false) := by decide

/-- F1. -/
theorem test_ret :
    (stepWord 0x00EE ((State.reset.setPc 0x210#16).setStack [0x206#16])).map (fun t => (t.pc, t.stack)) =
      some (0x206#16, []) := by decide

/-- F2. -/
theorem test_ret_underflow :
    (stepWord 0x00EE (State.reset)).map (fun t => (faultOf t, t.pc, t.stack)) =
      some (some (.stackUnderflow 0x200#16), 0x202#16, []) := by decide

/-- F3. -/
theorem test_jp :
    (stepWord 0x1234 (State.reset)).map (fun t => t.pc) =
      some (0x234#16) := by decide

/-- F4. -/
theorem test_call :
    (stepWord 0x2210 (State.reset.setPc 0x204#16)).map (fun t => (t.stack, t.pc)) =
      some ([0x206#16], 0x210#16) := by decide

/-- F5. -/
theorem test_call_overflow :
    (stepWord 0x2300 (State.reset.setStack (List.replicate 16 0x202#16))).map (fun t => (faultOf t, t.pc, t.stack.length)) =
      some (some (.stackOverflow 0x200#16), 0x202#16, 16) := by decide

/-- F5 with STACK_DEPTH = 1 (R9). -/
theorem test_call_overflow_at_capacity_1 :
    (stepWord 0x2300 ((State.resetWith 1).setStack [0x202#16])).map (fun t => (faultOf t, t.stack, t.stackDepth)) =
      some (some (.stackOverflow 0x200#16), [0x202#16], 1) := by decide

/-- F6. -/
theorem test_jpV0_no_wrap :
    (stepWord 0xBFFF (State.reset.setV 0x0#4 0xFF#8)).map (fun t => t.pc) =
      some (0x10FE#16) := by decide

/-- F9. -/
theorem test_seImm_taken :
    (stepWord 0x3342 (State.reset.setV 0x3#4 0x42#8)).map (fun t => t.pc) =
      some (0x204#16) := by decide

/-- F10. -/
theorem test_seImm_not_taken :
    (stepWord 0x3342 (State.reset.setV 0x3#4 0x41#8)).map (fun t => t.pc) =
      some (0x202#16) := by decide

/-- F11. -/
theorem test_sneImm_taken :
    (stepWord 0x4342 (State.reset.setV 0x3#4 0x41#8)).map (fun t => t.pc) =
      some (0x204#16) := by decide

/-- F12. -/
theorem test_sneImm_not_taken :
    (stepWord 0x4342 (State.reset.setV 0x3#4 0x42#8)).map (fun t => t.pc) =
      some (0x202#16) := by decide

/-- F13. -/
theorem test_seReg_same :
    (stepWord 0x5110 (State.reset.setV 0x1#4 0x09#8)).map (fun t => t.pc) =
      some (0x204#16) := by decide

/-- F14. -/
theorem test_seReg_differ :
    (stepWord 0x5120 (withRegs 0x1#4 0x07#8 0x2#4 0x08#8)).map (fun t => t.pc) =
      some (0x202#16) := by decide

/-- F16. -/
theorem test_sneReg_same :
    (stepWord 0x9110 (State.reset.setV 0x1#4 0x09#8)).map (fun t => t.pc) =
      some (0x202#16) := by decide

/-- F17. -/
theorem test_sneReg_differ :
    (stepWord 0x9120 (withRegs 0x1#4 0x07#8 0x2#4 0x08#8)).map (fun t => t.pc) =
      some (0x204#16) := by decide

/-- A1. -/
theorem test_ldImm :
    (stepWord 0x6A2B (State.reset)).map (fun t => t.getV 0xA#4) =
      some (0x2B#8) := by decide

/-- A2, L1.1. -/
theorem test_addImm_no_flag :
    (stepWord 0x7001 (withRegs 0x0#4 0xFF#8 0xF#4 0x33#8)).map (fun t => (t.getV 0x0#4, t.getV 0xF#4)) =
      some (0x00#8, 0x33#8) := by decide

/-- A3. -/
theorem test_addImm_to_VF :
    (stepWord 0x7F01 (State.reset.setV 0xF#4 0xFF#8)).map (fun t => t.getV 0xF#4) =
      some (0x00#8) := by decide

/-- A4. -/
theorem test_ldReg :
    (stepWord 0x8120 (State.reset.setV 0x2#4 0x99#8)).map (fun t => t.getV 0x1#4) =
      some (0x99#8) := by decide

/-- A5. -/
theorem test_orReg :
    (stepWord 0x8121 ((withRegs 0x1#4 0x0F#8 0x2#4 0xF0#8).setV 0xF#4 0x55#8)).map (fun t => (t.getV 0x1#4, t.getV 0xF#4)) =
      some (0xFF#8, 0x55#8) := by decide

/-- A6. -/
theorem test_andReg :
    (stepWord 0x8122 (withRegs 0x1#4 0xF3#8 0x2#4 0x3F#8)).map (fun t => t.getV 0x1#4) =
      some (0x33#8) := by decide

/-- A8. -/
theorem test_xorReg :
    (stepWord 0x8123 (withRegs 0x1#4 0xFF#8 0x2#4 0x0F#8)).map (fun t => t.getV 0x1#4) =
      some (0xF0#8) := by decide

/-- A9, L1.2. -/
theorem test_addReg_carry :
    (stepWord 0x8124 (withRegs 0x1#4 0xFF#8 0x2#4 0x01#8)).map (fun t => (t.getV 0x1#4, t.getV 0xF#4)) =
      some (0x00#8, 0x01#8) := by decide

/-- A10. -/
theorem test_addReg_x_is_F :
    (stepWord 0x8F14 (withRegs 0x1#4 0x80#8 0xF#4 0x80#8)).map (fun t => t.getV 0xF#4) =
      some (0x01#8) := by decide

/-- L1.3. -/
theorem test_subReg_borrow :
    (stepWord 0x8125 (withRegs 0x1#4 0x03#8 0x2#4 0x05#8)).map (fun t => (t.getV 0x1#4, t.getV 0xF#4)) =
      some (0xFE#8, 0x00#8) := by decide

/-- A13. -/
theorem test_subReg_equal :
    (stepWord 0x8125 (withRegs 0x1#4 0x07#8 0x2#4 0x07#8)).map (fun t => (t.getV 0x1#4, t.getV 0xF#4)) =
      some (0x00#8, 0x01#8) := by decide

/-- A15. -/
theorem test_shr :
    (stepWord 0x84A6 (withRegs 0x4#4 0x05#8 0xA#4 0xFF#8)).map (fun t => (t.getV 0x4#4, t.getV 0xF#4)) =
      some (0x02#8, 0x01#8) := by decide

/-- A17. -/
theorem test_shr_x_is_F :
    (stepWord 0x8F06 (State.reset.setV 0xF#4 0x03#8)).map (fun t => t.getV 0xF#4) =
      some (0x01#8) := by decide

/-- A18. -/
theorem test_subnReg :
    (stepWord 0x8127 (withRegs 0x1#4 0x03#8 0x2#4 0x05#8)).map (fun t => (t.getV 0x1#4, t.getV 0xF#4)) =
      some (0x02#8, 0x01#8) := by decide

/-- A19. -/
theorem test_subnReg_borrow :
    (stepWord 0x8127 (withRegs 0x1#4 0x05#8 0x2#4 0x03#8)).map (fun t => (t.getV 0x1#4, t.getV 0xF#4)) =
      some (0xFE#8, 0x00#8) := by decide

/-- A20. -/
theorem test_shl :
    (stepWord 0x840E (State.reset.setV 0x4#4 0x81#8)).map (fun t => (t.getV 0x4#4, t.getV 0xF#4)) =
      some (0x02#8, 0x01#8) := by decide

/-- A21. -/
theorem test_shl_no_carry :
    (stepWord 0x840E (State.reset.setV 0x4#4 0x7F#8)).map (fun t => (t.getV 0x4#4, t.getV 0xF#4)) =
      some (0xFE#8, 0x00#8) := by decide

/-- A24, the source fixed to 0xA7. -/
theorem test_rnd_masks :
    (stateOf (rndWith 0xA7#8 0x3#4 0x0F#8 State.reset)).map (fun t => (t.getV 0x3#4, t.pc, t.draws)) =
      some (0x07#8, 0x202#16, 1) := by decide

/-- M1. -/
theorem test_ldI :
    (stepWord 0xA2F0 (State.reset)).map (fun t => t.i) =
      some (0x02F0#16) := by decide

/-- M3. -/
theorem test_addIVx_no_12_bit_wrap :
    (stepWord 0xF21E ((State.reset.setV 0x2#4 0x01#8).setI 0x0FFF#16)).map (fun t => t.i) =
      some (0x1000#16) := by decide

/-- M4. -/
theorem test_addIVx_16_bit_wrap :
    (stepWord 0xF21E ((State.reset.setV 0x2#4 0x01#8).setI 0xFFFF#16)).map (fun t => (t.i, t.getV 0xF#4)) =
      some (0x0000#16, 0x00#8) := by decide

/-- M5. -/
theorem test_ldFVx :
    (stepWord 0xF529 (State.reset.setV 0x5#4 0x0A#8)).map (fun t => t.i) =
      some (0x0032#16) := by decide

/-- M7. -/
theorem test_ldFVx_not_masked :
    (stepWord 0xF529 (State.reset.setV 0x5#4 0xFF#8)).map (fun t => t.i) =
      some (0x04FB#16) := by decide

/-- L1.4. -/
theorem test_ldBVx :
    (stepWord 0xF033 ((State.reset.setV 0x0#4 157#8).setI 0x300#16)).map (fun t => (Memory.readBytes t.mem 0x300 3, t.i)) =
      some ([1#8, 5#8, 7#8], 0x300#16) := by decide

/-- M10. -/
theorem test_ldBVx_out_of_range :
    (stepWord 0xF033 (((withBytes 0xFFE#16 [0x11#8, 0x22#8]).setV 0x0#4 157#8))).map (fun t => (faultOf t, t.pc,
      Memory.readBytes t.mem 0xFFE 2)) =
      some (some (.outOfBoundsAccess 0x200#16 0x1000#16), 0x202#16, [0x11#8, 0x22#8]) := by decide

/-- M13. -/
theorem test_storeRegs :
    (stepWord 0xF255 (((withRegs 0x0#4 0x11#8 0x1#4 0x22#8).setV 0x2#4 0x33#8).setI 0x400#16)).map (fun t =>
      (Memory.readBytes t.mem 0x400 4, t.i)) =
      some ([0x11#8, 0x22#8, 0x33#8, 0x00#8], 0x400#16) := by decide

/-- M12. -/
theorem test_storeRegs_out_of_range :
    (stepWord 0xFF55 (State.reset.setI 0xFF1#16)).map (fun t => (faultOf t, t.pc)) =
      some (some (.outOfBoundsAccess 0x200#16 0x1000#16), 0x202#16) := by decide

/-- M14. -/
theorem test_loadRegs :
    (stepWord 0xF265 ((withBytes 0x300#16 [1#8, 5#8, 7#8]).setV 0x3#4 0xEE#8)).map (fun t => (t.v.toList.take 4, t.i)) =
      some ([1#8, 5#8, 7#8, 0xEE#8], 0x300#16) := by decide

/-- M15. -/
theorem test_loadRegs_out_of_range :
    (stepWord 0xF065 ((State.reset.setI 0x1000#16).setV 0x0#4 0x77#8)).map (fun t => (faultOf t, t.getV 0x0#4)) =
      some (some (.outOfBoundsAccess 0x200#16 0x1000#16), 0x77#8) := by decide

/-- D5. -/
theorem test_drw_wraps_at_corner :
    (stepWord 0xD011 (((withBytes 0x300#16 [0xFF#8]).setV 0x0#4 0xFF#8).setV 0x1#4 0xFF#8)).map (fun t => (t.fb.pixel 31
      63, t.fb.pixel 31 0, t.fb.pixel 31 6, t.fb.pixel 31 7, t.getV 0xF#4)) =
      some (true, true, true, false, 0x00#8) := by decide

/-- D4. -/
theorem test_drw_collides :
    (stepWord 0xD011 ((withBytes 0x300#16 [0xC0#8]).setFb (Framebuffer.clear.setPixel 0 0 true))).map (fun t =>
      (t.fb.pixel 0 0, t.fb.pixel 0 1, t.getV 0xF#4)) =
      some (false, true, 0x01#8) := by decide

/-- K3. -/
theorem test_skp_not_masked :
    (stepWord 0xE29E ((State.reset.setV 0x2#4 0x15#8).setKey (some 5#4))).map (fun t => t.pc) =
      some (0x202#16) := by decide

/-- K1, L1.8. -/
theorem test_skp_pressed :
    (stepWord 0xE29E ((State.reset.setV 0x2#4 0x05#8).setKey (some 5#4))).map (fun t => t.pc) =
      some (0x204#16) := by decide

/-- K4. -/
theorem test_sknp_other_key :
    (stepWord 0xE2A1 ((State.reset.setV 0x2#4 0x05#8).setKey (some 3#4))).map (fun t => t.pc) =
      some (0x204#16) := by decide

/-- K5. -/
theorem test_sknp_pressed :
    (stepWord 0xE2A1 ((State.reset.setV 0x2#4 0x05#8).setKey (some 5#4))).map (fun t => t.pc) =
      some (0x202#16) := by decide

/-- K11, first step. -/
theorem test_ldVxK_waits :
    (stepWord 0xF30A (State.reset.setKey (some 9#4))).map (fun t => (t.status, t.pc, t.getV 0x3#4)) =
      some (.waiting 0x3#4, 0x202#16, 0x00#8) := by decide

/-- K10. -/
theorem test_key_wait_completes :
    (stateOf (step ((State.reset.advance.setStatus (.waiting 0x3#4)).setPressed (some 9#4)))).map (fun t => (t.status,
      t.pc, t.getV 0x3#4)) =
      some (.running, 0x202#16, 0x09#8) := by decide

/-- T1. -/
theorem test_ldVxDt :
    (stepWord 0xF107 (State.reset.setDt 0x3C#8)).map (fun t => t.getV 0x1#4) =
      some (0x3C#8) := by decide

/-- T2. -/
theorem test_ldDtVx :
    (stepWord 0xF115 (State.reset.setV 0x1#4 0x3C#8)).map (fun t => (t.dt, t.st)) =
      some (0x3C#8, 0x00#8) := by decide

/-- T3. -/
theorem test_ldStVx :
    (stepWord 0xF118 (State.reset.setV 0x1#4 0x02#8)).map (fun t => (t.st, t.dt, t.soundOn)) =
      some (0x02#8, 0x00#8, true) := by decide

/-- T4, T5. -/
theorem test_tick_saturates :
    (State.reset.tick.dt, State.reset.tick.st, ((State.reset.setDt 1#8).setSt 2#8).tick.dt,
      ((State.reset.setDt 1#8).setSt 2#8).tick.st) =
      (0#8, 0#8, 0#8, 1#8) := by decide

/-- S11. -/
theorem test_clear_fault_skips :
    ((State.reset.advance.raise (.unknownOpcode 0x200#16 0x0001#16)).clearFault.status,
      (State.reset.advance.raise (.unknownOpcode 0x200#16 0x0001#16)).clearFault.pc) =
      (.running, 0x202#16) := by decide

/-- R67. -/
theorem test_load_refused_outside :
    (State.reset.hostLoad 0x1000 0x12#8, (State.reset.hostLoad 0xFFF 0x12#8).mem) =
      (State.reset, [(0xFFF, 0x12#8)]) := by decide

/-- R198: in one cycle the step comes last and sees the byte loaded and the timer ticked in it. -/
theorem test_cycle_order : (stateOf (clockCycle
    { reset := true, load := some (0x200, 0xF1#8), setPressed := some (some 7#4), clearFault := true, tick := true,
      step := some 0xA7#8 }
    ((State.reset.setMem [(0x201, 0x07#8)]).setDt 9#8))).map (fun t => (t.key, t.dt, faultOf t)) =
    some (some 7#4, 0x00#8, some (.unknownOpcode 0x200#16 0xF100#16)) := by decide

/-- R197, the port view: a load and a step in one cycle, with the key lines saying that no key is held. -/
theorem test_ports : (stateOf (portCycle
    { rst := false, ldWe := true, ldAddr := 0x201#16, ldData := 0xE0#8, keyValid := false, keyCode := 7#4, clr := false,
      tick := false, step := true, rnd := 0x00#8 }
    (State.reset.setKey (some 3#4)))).map (fun t => (t.key, t.pc, t.status)) = some (none, 0x202#16, .running) := by decide

/-- A24 through the port view: the rnd port gives the cycle's Cxnn its byte (R196, R197). -/
theorem test_ports_rnd : (stateOf (portCycle
    { rst := false, ldWe := false, ldAddr := 0x000#16, ldData := 0x00#8, keyValid := false, keyCode := 0#4, clr := false,
      tick := false, step := true, rnd := 0xA7#8 }
    (State.reset.withFetchWord 16 0xC30F))).map (fun t => (t.getV 0x3#4, t.draws)) = some (0x07#8, 1) := by decide

/-- R182: code 6 with its registers, whatever the others hold. -/
theorem test_info_registers (free : InfoRegs) :
    ((State.reset.raise (.outOfBoundsAccess 0x1000#16 0x1000#16)).statusCode,
      (State.reset.raise (.outOfBoundsAccess 0x1000#16 0x1000#16)).infoRegs free) =
    (6, { free with faultPc := 0x1000#16, faultAddr := 0x1000#16 }) := rfl

/-! ## For every statement with hypotheses, a state and operands that meet them all together -/

/-- The reset state with one word at the reset pc. -/
def atReset (w : Nat) : State :=
  State.reset.withFetchWord 16 w

theorem witness_ResetLeavesTheListedValues :
    (State.reset = State.reset ∨ (∃ d, State.reset = State.resetWith d) ∨
      transition .reset State.reset.halt = .next State.reset) ∧
    (∃ d, State.resetWith 0 = State.resetWith d) ∧
    transition .reset (((State.resetWith 2).setI 0x300#16).setV 0x1#4 0x05#8) = .next (State.resetWith 2) :=
  ⟨.inl rfl, ⟨0, rfl⟩, rfl⟩

theorem witness_EncodeOfDecodedWord : decodeWord 0xFF65#16 = .ok (.loadRegs 0xF#4) := rfl

/-- Each row's clause, at the highest word that matches it. -/
theorem witness_DecodeFollowsEveryRow :
    0x0000#16 &&& 0xFFFF#16 = 0x0000#16 ∧ 0x00E0#16 &&& 0xFFFF#16 = 0x00E0#16 ∧ 0x00EE#16 &&& 0xFFFF#16 = 0x00EE#16 ∧
    0x1FFF#16 &&& 0xF000#16 = 0x1000#16 ∧ 0x2FFF#16 &&& 0xF000#16 = 0x2000#16 ∧ 0x3FFF#16 &&& 0xF000#16 = 0x3000#16 ∧
    0x4FFF#16 &&& 0xF000#16 = 0x4000#16 ∧ 0x5FF0#16 &&& 0xF00F#16 = 0x5000#16 ∧ 0x6FFF#16 &&& 0xF000#16 = 0x6000#16 ∧
    0x7FFF#16 &&& 0xF000#16 = 0x7000#16 ∧ 0x8FF0#16 &&& 0xF00F#16 = 0x8000#16 ∧ 0x8FF1#16 &&& 0xF00F#16 = 0x8001#16 ∧
    0x8FF2#16 &&& 0xF00F#16 = 0x8002#16 ∧ 0x8FF3#16 &&& 0xF00F#16 = 0x8003#16 ∧ 0x8FF4#16 &&& 0xF00F#16 = 0x8004#16 ∧
    0x8FF5#16 &&& 0xF00F#16 = 0x8005#16 ∧ 0x8FF6#16 &&& 0xF00F#16 = 0x8006#16 ∧ 0x8FF7#16 &&& 0xF00F#16 = 0x8007#16 ∧
    0x8FFE#16 &&& 0xF00F#16 = 0x800E#16 ∧ 0x9FF0#16 &&& 0xF00F#16 = 0x9000#16 ∧ 0xAFFF#16 &&& 0xF000#16 = 0xA000#16 ∧
    0xBFFF#16 &&& 0xF000#16 = 0xB000#16 ∧ 0xCFFF#16 &&& 0xF000#16 = 0xC000#16 ∧ 0xDFFF#16 &&& 0xF000#16 = 0xD000#16 ∧
    0xEF9E#16 &&& 0xF0FF#16 = 0xE09E#16 ∧ 0xEFA1#16 &&& 0xF0FF#16 = 0xE0A1#16 ∧ 0xFF07#16 &&& 0xF0FF#16 = 0xF007#16 ∧
    0xFF0A#16 &&& 0xF0FF#16 = 0xF00A#16 ∧ 0xFF15#16 &&& 0xF0FF#16 = 0xF015#16 ∧ 0xFF18#16 &&& 0xF0FF#16 = 0xF018#16 ∧
    0xFF1E#16 &&& 0xF0FF#16 = 0xF01E#16 ∧ 0xFF29#16 &&& 0xF0FF#16 = 0xF029#16 ∧ 0xFF33#16 &&& 0xF0FF#16 = 0xF033#16 ∧
    0xFF55#16 &&& 0xF0FF#16 = 0xF055#16 ∧ 0xFF65#16 &&& 0xF0FF#16 = 0xF065#16 := by decide

/-- The last clause, at a word one bit from a row. -/
theorem witness_DecodeFollowsEveryRow_noRow :
    (∀ p ∈ [0x0000#16, 0x00E0#16, 0x00EE#16], 0x9FF1#16 &&& 0xFFFF#16 ≠ p) ∧
    (∀ p ∈ [0x1000#16, 0x2000#16, 0x3000#16, 0x4000#16, 0x6000#16, 0x7000#16, 0xA000#16, 0xB000#16, 0xC000#16,
      0xD000#16], 0x9FF1#16 &&& 0xF000#16 ≠ p) ∧
    (∀ p ∈ [0x5000#16, 0x8000#16, 0x8001#16, 0x8002#16, 0x8003#16, 0x8004#16, 0x8005#16, 0x8006#16, 0x8007#16,
      0x800E#16, 0x9000#16], 0x9FF1#16 &&& 0xF00F#16 ≠ p) ∧
    (∀ p ∈ [0xE09E#16, 0xE0A1#16, 0xF007#16, 0xF00A#16, 0xF015#16, 0xF018#16, 0xF01E#16, 0xF029#16, 0xF033#16,
      0xF055#16, 0xF065#16], 0x9FF1#16 &&& 0xF0FF#16 ≠ p) := by simp

theorem witness_RejectedWordsAreTheUnknownOnes :
    wellFormedWord 0x0001#16 = false ∧ decodeWord 0x0001#16 = .error (.unknownOpcode 0x0001#16) := ⟨by decide, rfl⟩

/-- The last pc that can be fetched from. -/
theorem witness_FetchIsBigEndian :
    (State.reset.setPc 0x0FFE#16).pc.toNat + 1 < 4096 := by decide

/-- Both clauses, where they meet. -/
theorem witness_FetchFaultLatches :
    (State.reset.setPc 0x0FFF#16).status = .running ∧ (State.reset.setPc 0x0FFF#16).pc.toNat = 4095 ∧
    (State.reset.setPc 0x1000#16).status = .running ∧ 4096 ≤ (State.reset.setPc 0x1000#16).pc.toNat := by decide

theorem witness_StepRunsDecodedInstr :
    (atReset 0x6A2B).status = .running ∧ (atReset 0x6A2B).pc.toNat + 1 < 4096 ∧
    decodeBytes [Memory.read (atReset 0x6A2B).mem (atReset 0x6A2B).pc.toNat,
      Memory.read (atReset 0x6A2B).mem ((atReset 0x6A2B).pc.toNat + 1)] = .ok (.ldImm 0xA#4 0x2B#8, []) :=
        ⟨rfl, by decide, rfl⟩

theorem witness_UnknownWordLatches :
    (atReset 0x5121).status = .running ∧ (atReset 0x5121).fetch = .ok 0x5121#16 ∧
      wellFormedWord 0x5121#16 = false := ⟨rfl, rfl, by decide⟩

theorem witness_ZeroWordHalts :
    State.reset.status = .running ∧ State.reset.pc.toNat + 1 < 4096 ∧
    Memory.read State.reset.mem State.reset.pc.toNat = 0x00#8 ∧
    Memory.read State.reset.mem (State.reset.pc.toNat + 1) = 0x00#8 := by decide

theorem witness_StoppedMachineStays :
    (State.reset.halt.status = .halted ∨ ∃ f, State.reset.halt.status = .faulted f) ∧
    ((State.reset.raise (.stackUnderflow 0x200#16)).status = .halted ∨
      ∃ f, (State.reset.raise (.stackUnderflow 0x200#16)).status = .faulted f) := ⟨.inl rfl, .inr ⟨_, rfl⟩⟩

/-- One entry below the capacity. -/
theorem witness_CallPushesReturnAddress :
    (State.reset.setStack (List.replicate 15 0x202#16)).stack.length <
      (State.reset.setStack (List.replicate 15 0x202#16)).stackDepth := by decide

/-- Capacities 2 and 3 for a stack of two, and a full stack at the default. -/
theorem witness_CallAtEveryCapacity :
    ((State.resetWith 2).setStack [0x202#16, 0x204#16]).stackDepth = 2 ∧
    2 ≤ ((State.resetWith 2).setStack [0x202#16, 0x204#16]).stack.length ∧
    ((State.resetWith 3).setStack [0x202#16, 0x204#16]).stackDepth = 3 ∧
    ((State.resetWith 3).setStack [0x202#16, 0x204#16]).stack.length < 3 ∧
    (State.reset.setStack (List.replicate 16 0x202#16)).stackDepth = 16 ∧
    16 ≤ (State.reset.setStack (List.replicate 16 0x202#16)).stack.length := by decide

/-- The last entry. -/
theorem witness_RetPopsReturnAddress :
    (State.reset.setStack [0x206#16]).stack = 0x206#16 :: [] := rfl

theorem witness_RetUnderflowLatches :
    State.reset.stack = [] := rfl

/-- As deep as the stack allows. -/
theorem witness_NestedCallsReturn :
    List.replicate 16 0x300#12 ≠ [] ∧
      State.reset.stack.length + (List.replicate 16 0x300#12).length ≤ State.reset.stackDepth := by decide

/-- Each skip's condition, holding and failing. -/
theorem witness_RegisterSkipsFollowTheirCondition :
    State.reset.getV 0x3#4 = 0x00#8 ∧ State.reset.getV 0x3#4 ≠ 0x01#8 ∧ State.reset.getV 0x3#4 = State.reset.getV 0x4#4 ∧
    (State.reset.setV 0x4#4 0xFF#8).getV 0x3#4 ≠ (State.reset.setV 0x4#4 0xFF#8).getV 0x4#4 := by decide

/-- A match at the highest key, and 0x1F, which a 4-bit comparison would match. -/
theorem witness_KeySkipsCompareTheWholeByte :
    (∃ k, ((State.reset.setV 0x2#4 0x0F#8).setKey (some 0xF#4)).key = some k ∧
      (((State.reset.setV 0x2#4 0x0F#8).setKey (some 0xF#4)).getV 0x2#4).toNat = k.toNat) ∧
    ¬ (∃ k, ((State.reset.setV 0x2#4 0x1F#8).setKey (some 0xF#4)).key = some k ∧
      (((State.reset.setV 0x2#4 0x1F#8).setKey (some 0xF#4)).getV 0x2#4).toNat = k.toNat) := by decide

/-- The highest register that is not VF, at the first sum that carries. -/
theorem witness_AddRegistersSetsCarry :
    (0xE#4 : Reg) ≠ Reg.flag ∧ (withRegs 0xE#4 0xFF#8 0x2#4 0x01#8).getV 0xE#4 = 0xFF#8 := by decide

/-- Equal operands: no borrow. -/
theorem witness_SubtractionsSetNoBorrow :
    (0xE#4 : Reg) ≠ Reg.flag ∧
      (withRegs 0xE#4 0x07#8 0x2#4 0x07#8).getV 0xE#4 = (withRegs 0xE#4 0x07#8 0x2#4 0x07#8).getV 0x2#4 := by decide

/-- A byte with both end bits set. -/
theorem witness_ShiftsIgnoreVy :
    (0xE#4 : Reg) ≠ Reg.flag ∧ (State.reset.setV 0xE#4 0x81#8).getV 0xE#4 = 0x81#8 := by decide

/-- The first bit outside the mask and the last inside. -/
theorem witness_RandomByteIsMasked :
    (0x0F#8 : Byte).getLsbD 4 = false ∧ (0x0F#8 : Byte).getLsbD 3 = true := by decide

/-- A step that fetches Cxnn, and one that does not. -/
theorem witness_RandomByteIsMasked_given :
    Fetched (.rnd 0x3#4 0x0F#8) (atReset 0xC30F) ∧
    ∀ x nn, ¬ Fetched (.rnd x nn) (State.reset.setPc 0x0FFF#16) :=
      ⟨⟨rfl, _, rfl, rfl⟩, fun _ _ h => by obtain ⟨-, op, h, -⟩ := h; cases h⟩

theorem witness_OnlyNamedRegistersChange :
    ∃ t, step (atReset 0x6A2B) = .next t ∧ t.getV 0xA#4 ≠ (atReset 0x6A2B).getV 0xA#4 := ⟨_, rfl, by decide⟩

/-- VF changes although 8124 does not name it. -/
theorem witness_OnlyNamedRegistersChange_flag :
    ∃ t, step ((atReset 0x8124).setV 0x1#4 0xFF#8 |>.setV 0x2#4 0x01#8) = .next t ∧
    t.getV Reg.flag ≠ ((atReset 0x8124).setV 0x1#4 0xFF#8 |>.setV 0x2#4 0x01#8).getV Reg.flag := ⟨_, rfl, by decide⟩

/-- A key wait completes. -/
theorem witness_OnlyNamedRegistersChange_wait :
    ∃ t, step ((State.reset.setStatus (.waiting 0x3#4)).setKey (some 9#4)) = .next t ∧
    t.getV 0x3#4 ≠ ((State.reset.setStatus (.waiting 0x3#4)).setKey (some 9#4)).getV 0x3#4 := ⟨_, rfl, by decide⟩

/-- The last I that fits. -/
theorem witness_BcdDigitsAreStored :
    (State.reset.setI 0x0FFD#16).i.toNat + 2 < 4096 := by decide

/-- All registers at the last I that fits (M11). -/
theorem witness_RegisterBlockIsStored :
    (State.reset.setI 0x0FF0#16).i.toNat + (0xF#4 : Reg).toNat < 4096 := by decide

theorem witness_RegisterBlockIsLoaded :
    (State.reset.setI 0x0FF0#16).i.toNat + (0xF#4 : Reg).toNat < 4096 ∧
    (0x3#4 : Reg).toNat < (0x4#4 : Reg).toNat := by decide

/-- The first I that does not fit, for each form (M10, M12, M15, D8). -/
theorem witness_TransfersOutOfRangeFault :
    4096 ≤ (State.reset.setI 0x0FFE#16).i.toNat + 2 ∧ 4096 ≤ (State.reset.setI 0x0FF1#16).i.toNat + (0xF#4 : Reg).toNat ∧
    4096 ≤ (State.reset.setI 0x1000#16).i.toNat + (0x0#4 : Reg).toNat ∧ 0 < (0x2#4 : Nibble).toNat ∧
    4096 ≤ (State.reset.setI 0x0FFF#16).i.toNat + (0x2#4 : Nibble).toNat - 1 := by decide

theorem witness_StoredBlockLoadsBack :
    ∃ t w, (State.reset.setI 0x0FF0#16).i.toNat + (0xF#4 : Reg).toNat < 4096 ∧
    exec (.storeRegs 0xF#4) (State.reset.setI 0x0FF0#16) = .next t ∧ SameMem t (t.setV 0x5#4 0x77#8) ∧
    (t.setV 0x5#4 0x77#8).i = (State.reset.setI 0x0FF0#16).i ∧
    exec (.loadRegs 0xF#4) (t.setV 0x5#4 0x77#8) = .next w ∧
      (0xF#4 : Reg).toNat ≤ (0xF#4 : Reg).toNat := ⟨_, _, by decide, rfl, fun _ => rfl, rfl, rfl, by decide⟩

theorem witness_StoreIsSeenByTheNextFetch :
    ∃ t, 1 ≤ (0x1#4 : Reg).toNat ∧ (State.reset.setI 0x202#16).pc.toNat + 3 < 4096 ∧
    (State.reset.setI 0x202#16).i.toNat = (State.reset.setI 0x202#16).pc.toNat + 2 ∧
    (State.reset.setI 0x202#16).i.toNat + (0x1#4 : Reg).toNat < 4096 ∧
    exec (.storeRegs 0x1#4) (State.reset.setI 0x202#16) = .next t := ⟨_, by decide, by decide, by decide, by decide, rfl⟩

/-- The tallest sprite. -/
theorem witness_BlitFlipsCoveredPixels :
    (List.replicate 15 0xFF#8).length ≤ 15 := by decide

/-- n = 0 with I outside the space (D7), and the tallest sprite at the last I that fits. -/
theorem witness_DrawFlipsSpriteAndSetsCollision :
    ((0x0#4 : Nibble) = 0x0#4 ∨ (State.reset.setI 0x2000#16).i.toNat + (0x0#4 : Nibble).toNat - 1 < 4096) ∧
    (State.reset.setI 0x0FF1#16).i.toNat + (0xF#4 : Nibble).toNat - 1 < 4096 := by decide

/-- A first draw that turns a pixel on. -/
theorem witness_SecondBlitRestoresFramebuffer :
    ([0x80#8] : List Byte).length ≤ 15 ∧
      turnedOff (blit 0x00#8 0x00#8 [0x80#8] Framebuffer.clear).1 Framebuffer.clear := ⟨by decide, 0, 0, by decide⟩

theorem witness_FramebufferIsApartFromMemory :
    (∃ t, exec .cls State.reset = .next t) ∧ (∃ t, exec (.drw 0x0#4 0x1#4 0x1#4) State.reset = .next t) ∧
    (∃ t, exec (.drw 0x0#4 0x1#4 0x1#4) (State.reset.setI 0x1000#16) = .next t) ∧
    (∃ t, exec (.ldBVx 0x0#4) State.reset = .next t) ∧
      (∃ t, exec (.storeRegs 0x0#4) State.reset = .next t) := ⟨⟨_, rfl⟩, ⟨_, rfl⟩, ⟨_, rfl⟩, ⟨_, rfl⟩, ⟨_, rfl⟩⟩

theorem witness_TimerTransfers_soundOn :
    (State.reset.setV 0x1#4 0x01#8).getV 0x1#4 ≠ 0x00#8 := by decide

/-- x = F stores the key into VF. -/
theorem witness_KeyWaitEndsWithTheKey :
    ∃ t, exec (.ldVxK 0xF#4) State.reset = .next t := ⟨_, rfl⟩

theorem witness_OnlyTheHostWritesTheKey :
    ∃ t, (∀ op ∈ [HostOp.step 0xA7#8, .tick, .clearFault, .load 0x200 0x12#8], (∃ r, op = .step r) ∨ op = .tick ∨
      op = .clearFault ∨ ∃ a b, op = .load a b) ∧
    runOps [.setPressed (some 0xF#4), .step 0xA7#8, .tick, .clearFault, .load 0x200 0x12#8] State.reset = .next t :=
      ⟨_, by simp, rfl⟩

/-- S13, S11, and the two statuses clear_fault does not leave. -/
theorem witness_ClearFaultSkipsOrRetries :
    (State.reset.setPc 0x0FFF#16).status = .running ∧
    (State.reset.setPc 0x0FFF#16).fetch = .error (.outOfBoundsAccess 0x0FFF#16 0x1000#16) ∧
    State.reset.status = .running ∧ (∀ g, State.reset.halt.status ≠ .faulted g) ∧
    (∀ g, (State.reset.setStatus (.waiting 0x3#4)).status ≠ .faulted g) :=
      ⟨rfl, rfl, rfl, fun _ => by simp, fun _ => by simp⟩

/-- The last byte that lands, of an image one byte too long. -/
theorem witness_ProgramIsLoadedFrom0x200 :
    3583 < (List.replicate 3585 0x12#8).length ∧ 512 + 3583 < 4096 ∧ ¬ 512 + 3584 < 4096 ∧
      4096 ≤ 512 + 3584 := ⟨by rw [List.length_replicate]; decide, by decide, by decide, by decide⟩

theorem witness_HaltedUntilReset :
    HostOp.reset ∉ [HostOp.step 0xA7#8, .clearFault, .tick, .load 0x200 0x12#8, .setPressed none] ∧
      State.reset.halt.status = .halted := by decide

/-- A fetch fault and a fault behind the advance. -/
theorem witness_FaultsArePrecise :
    (∃ t, (State.reset.setPc 0x0FFF#16).status = .running ∧ step (State.reset.setPc 0x0FFF#16) = .next t ∧
      t.status = .faulted (.outOfBoundsAccess 0x0FFF#16 0x1000#16)) ∧
    (∃ t, (atReset 0x00EE).status = .running ∧ step (atReset 0x00EE) = .next t ∧
      t.status = .faulted (.stackUnderflow 0x200#16)) := ⟨⟨_, rfl, rfl, rfl⟩, ⟨_, rfl, rfl, rfl⟩⟩

/-- Each clause's fault. -/
theorem witness_FaultsHaveTheirCause :
    (∃ t, step (atReset 0x5121) = .next t ∧ t.status = .faulted (.unknownOpcode 0x200#16 0x5121#16)) ∧
    (∃ t, step (atReset 0x00EE) = .next t ∧ t.status = .faulted (.stackUnderflow 0x200#16)) ∧
    (∃ t, step ((atReset 0x2300).setStack (List.replicate 16 0x202#16)) = .next t ∧
      t.status = .faulted (.stackOverflow 0x200#16)) ∧
    (∃ t, step ((atReset 0xF065).setI 0x1000#16) = .next t ∧
      t.status = .faulted (.outOfBoundsAccess 0x200#16 0x1000#16)) ∧
    (∃ t, step ((atReset 0xF033).setI 0x0FFE#16) = .next t ∧
      t.status = .faulted (.outOfBoundsAccess 0x200#16 0x1000#16)) ∧
    (∃ t, step ((atReset 0xF155).setI 0x0FFF#16) = .next t ∧
      t.status = .faulted (.outOfBoundsAccess 0x200#16 0x1000#16)) ∧
    (∃ t, step ((atReset 0xD012).setI 0x0FFF#16) = .next t ∧
      t.status = .faulted (.outOfBoundsAccess 0x200#16 0x1000#16)) ∧
    (∃ t, step (State.reset.setPc 0x0FFF#16) = .next t ∧ t.status = .faulted (.outOfBoundsAccess 0x0FFF#16 0x1000#16)) ∧
    (∃ t, step (State.reset.setPc 0x1000#16) = .next t ∧ t.status = .faulted (.outOfBoundsAccess 0x1000#16 0x1000#16)) ∧
    (atReset 0x5121).status = .running :=
      ⟨⟨_, rfl, rfl⟩, ⟨_, rfl, rfl⟩, ⟨_, rfl, rfl⟩, ⟨_, rfl, rfl⟩, ⟨_, rfl, rfl⟩, ⟨_, rfl, rfl⟩, ⟨_, rfl, rfl⟩, ⟨_,
      rfl, rfl⟩, ⟨_, rfl, rfl⟩, rfl⟩

theorem witness_PcAfterEveryInstr :
    Fetched (.call 0x300#12) (atReset 0x2300) ∧ (∃ t, step (atReset 0x2300) = .next t) ∧
    Fetched .halt (atReset 0x0000) ∧ (∃ t, step (atReset 0x0000) = .next t) ∧
    Fetched (.drw 0x0#4 0x1#4 0x1#4) (atReset 0xD011) ∧
      (∃ t, step (atReset 0xD011) = .next t) :=
      ⟨⟨rfl, _, rfl, rfl⟩, ⟨_, rfl⟩, ⟨rfl, _, rfl, rfl⟩, ⟨_, rfl⟩, ⟨rfl, _, rfl, rfl⟩, ⟨_, rfl⟩⟩

/-- Each field, changed by an instruction that may change it. -/
theorem witness_EachFieldHasItsWriters :
    (∃ t, exec (.ldI 0x2F0#12) State.reset = .next t ∧ t.i ≠ State.reset.i) ∧
    (∃ t, exec (.call 0x300#12) State.reset = .next t ∧ t.stack ≠ State.reset.stack) ∧
    (∃ t, exec (.ldDtVx 0x0#4) (State.reset.setDt 1#8) = .next t ∧ t.dt ≠ (State.reset.setDt 1#8).dt) ∧
    (∃ t, exec (.ldStVx 0x0#4) (State.reset.setSt 1#8) = .next t ∧ t.st ≠ (State.reset.setSt 1#8).st) ∧
    (∃ t, exec (.storeRegs 0x0#4) (State.reset.setV 0x0#4 0x11#8) = .next t ∧ t.mem ≠ (State.reset.setV 0x0#4 0x11#8).mem) ∧
    (∃ t, exec .cls (State.reset.setFb (Framebuffer.clear.setPixel 0 0 true)) = .next t ∧
      t.fb ≠ (State.reset.setFb (Framebuffer.clear.setPixel 0 0 true)).fb) ∧
    (∃ t, exec (.rnd 0x3#4 0x0F#8) State.reset = .next t ∧
      t.draws ≠ State.reset.draws) :=
      ⟨⟨_, rfl, by decide⟩, ⟨_, rfl, by decide⟩, ⟨_, rfl, by decide⟩, ⟨_, rfl, by decide⟩, ⟨_, rfl, by decide⟩, ⟨_,
      rfl, by decide⟩, ⟨_, rfl, by decide⟩⟩

theorem witness_SoundTimerAndKeyDoNotLeak :
    ∃ t u w, exec (.ldVxDt 0x1#4) State.reset = .next t ∧ exec (.ldVxDt 0x1#4) (State.reset.setSt 0x05#8) = .next u ∧
    (∀ x, Instr.ldVxDt 0x1#4 ≠ .skp x ∧ Instr.ldVxDt 0x1#4 ≠ .sknp x) ∧
    exec (.ldVxDt 0x1#4) (State.reset.setKey (some 5#4)) = .next w := ⟨_, _, _, rfl, rfl, fun _ => ⟨by simp, by simp⟩, rfl⟩

/-- The highest pc the invariant allows. -/
theorem witness_EveryStepKeepsTheInvariant :
    State.Inv (State.reset.setPc 0x10FE#16) ∧ ∃ t, step (State.reset.setPc 0x10FE#16) = .next t ∨
      ∃ r, stepGiven r (State.reset.setPc 0x10FE#16) = .next t :=
        ⟨⟨by decide, by decide, by simp [State.reset], by decide, trivial⟩, _, .inl rfl⟩

/-- A full stack of the highest return address the invariant allows. -/
theorem witness_EveryScheduleKeepsTheInvariant :
    State.Inv (State.reset.setStack (List.replicate 16 0x1000#16)) ∧
    ∃ t, runOps [.load 0x200 0x00#8, .load 0x201 0xEE#8,
      .step 0xA7#8] (State.reset.setStack (List.replicate 16 0x1000#16)) = .next t :=
      ⟨⟨by decide, by decide, fun _ h => (List.eq_of_mem_replicate h).symm ▸ by decide, by decide, trivial⟩, _, rfl⟩

/-- A canonical memory, and one failing each part of the form. -/
theorem witness_CanonicalMemoryIsUnique :
    Memory.wf [(0x000, 0x01#8), (0xFFF, 0xFF#8)] ∧ ¬ Memory.wf [(0xFFF, 0xFF#8), (0x000, 0x01#8)] ∧
      ¬ Memory.wf [(0x300, 0x00#8)] ∧
    ¬ Memory.wf [(0x1000, 0x01#8)] := by decide

theorem witness_StatusCodesAndInfoRegisters :
    State.reset.status = .running ∧ (State.reset.setStatus (.waiting 0xF#4)).status = .waiting 0xF#4 ∧
    State.reset.halt.status = .halted ∧
      (State.reset.raise (.unknownOpcode 0x200#16 0x0001#16)).status = .faulted (.unknownOpcode 0x200#16 0x0001#16) ∧
    (State.reset.raise (.stackUnderflow 0x200#16)).status = .faulted (.stackUnderflow 0x200#16) ∧
    (State.reset.raise (.stackOverflow 0x200#16)).status = .faulted (.stackOverflow 0x200#16) ∧
    (State.reset.raise (.outOfBoundsAccess 0x200#16 0x1000#16)).status =
      .faulted (.outOfBoundsAccess 0x200#16 0x1000#16) := by decide

end Sys2Proof.Tests
end

section
/-! PROOFS. The fetched word (R56): the bytes of a big-endian word read back, and a fetch below 0xFFF succeeds. -/

namespace Sys2Proof

/-- R56: the first byte in memory order is the high one. -/
@[simp] theorem wordOfBytes_high (b0 b1 : Byte) : (wordOfBytes b0 b1).extractLsb' 8 8 = b0 :=
  BitVec.extractLsb'_append_eq_left

/-- R56: the second byte in memory order is the low one. -/
@[simp] theorem wordOfBytes_low (b0 b1 : Byte) : (wordOfBytes b0 b1).extractLsb' 0 8 = b1 :=
  BitVec.extractLsb'_append_eq_right

namespace Machine

/-- R91: with both bytes inside memory, a fetch answers the word of the two. -/
theorem State.fetch_of_pc_lt {s : State} (h : s.pc.toNat + 1 < 4096) :
    s.fetch = .ok (wordOfBytes (Memory.read s.mem s.pc.toNat) (Memory.read s.mem (s.pc.toNat + 1))) := by
  obtain ⟨-, hok⟩ | ⟨hlast, -⟩ | ⟨hout, -⟩ := s.fetch_cases
  · exact hok
  · omega
  · omega

/-- Settles O7: the fetch answers the word of the two bytes at pc, whose high and low halves are those bytes. -/
theorem fetchIsBigEndian : Obligations.FetchIsBigEndian := by
  intro s h
  exact ⟨_, State.fetch_of_pc_lt h, wordOfBytes_high _ _, wordOfBytes_low _ _⟩

end Machine

end Sys2Proof
end

section
/-! PROOFS. The decoder against R75, row by row: a word that matches the k-th row of the table decodes to that row's
instruction, and a word that matches no pattern under any of the table's four masks is rejected. -/

namespace Sys2Proof

/-- R75: a word that is the k-th row's pattern under its mask decodes to that row's instruction. -/
theorem decodeWord_of_rowAt {op : Word} (k : Fin 35) (hm : op &&& decodeTable[k].mask = decodeTable[k].pattern) :
    decodeWord op = .ok (decodeTable[k].build (fieldsOf op)) :=
  decodeWord_of_row (List.getElem_mem k.isLt) (beq_iff_eq.2 hm)

/-- The patterns of the rows of R75 that have the given mask, in the table's order. -/
def patternsUnder (mask : Word) : List Word :=
  (decodeTable.filter (·.mask == mask)).map Row.pattern

/-- Each row's pattern is among those of its mask. -/
theorem pattern_mem_patternsUnder {r : Row} (hr : r ∈ decodeTable) : r.pattern ∈ patternsUnder r.mask :=
  List.mem_map_of_mem (List.mem_filter.2 ⟨hr, beq_self_eq_true r.mask⟩)

/-- R75: the masks that occur in the table. -/
theorem decodeTable_mask_cases : ∀ r ∈ decodeTable,
    r.mask = 0xFFFF#16 ∨ r.mask = 0xF000#16 ∨ r.mask = 0xF00F#16 ∨ r.mask = 0xF0FF#16 := by decide

/-- R77: a word that is no row's pattern under that row's mask is rejected by name. -/
theorem decodeWord_of_no_row {op : Word} (h : ∀ r ∈ decodeTable, op &&& r.mask ≠ r.pattern) :
    decodeWord op = .error (.unknownOpcode op) := by
  obtain ⟨r, hr, hm, -⟩ | ⟨-, herr⟩ := decodeWord_cases op
  · exact absurd (beq_iff_eq.1 hm) (h r hr)
  · exact herr

/-- R77: a word that meets no pattern of the table under any of its four masks is rejected by name. -/
theorem decodeWord_of_no_pattern {op : Word} (hFFFF : ∀ p ∈ patternsUnder 0xFFFF#16, op &&& 0xFFFF#16 ≠ p)
    (hF000 : ∀ p ∈ patternsUnder 0xF000#16, op &&& 0xF000#16 ≠ p)
    (hF00F : ∀ p ∈ patternsUnder 0xF00F#16, op &&& 0xF00F#16 ≠ p)
    (hF0FF : ∀ p ∈ patternsUnder 0xF0FF#16, op &&& 0xF0FF#16 ≠ p) :
    decodeWord op = .error (.unknownOpcode op) := by
  refine decodeWord_of_no_row fun r hr => ?_
  have hp := pattern_mem_patternsUnder hr
  obtain hmask | hmask | hmask | hmask := decodeTable_mask_cases r hr <;> rw [hmask] at hp ⊢
  · exact hFFFF _ hp
  · exact hF000 _ hp
  · exact hF00F _ hp
  · exact hF0FF _ hp

/-- Settles O4: the 35 clauses are the table's rows in their order, and the patterns the last clause excludes are those of
the table under each of its masks. -/
theorem decodeFollowsEveryRow : Obligations.DecodeFollowsEveryRow := by
  intro op
  have row := @decodeWord_of_rowAt op
  exact ⟨row 0, row 1, row 2, row 3, row 4, row 5, row 6, row 7, row 8, row 9, row 10, row 11, row 12, row 13, row 14,
    row 15, row 16, row 17, row 18, row 19, row 20, row 21, row 22, row 23, row 24, row 25, row 26, row 27, row 28,
    row 29, row 30, row 31, row 32, row 33, row 34, decodeWord_of_no_pattern⟩

end Sys2Proof
end

section
/-! PROOFS. Loads, the logic operations and the immediate add: each is the pc advance followed by one register write, whose
whole effect is said once. -/

namespace Sys2Proof.Machine

/-- R92: a register write behind the pc advance leaves pc at the following instruction. -/
theorem nextPc_advance_setV (s : State) (x : Reg) (b : Byte) : NextPc s (s.advance.setV x b) :=
  BitVec.toNat_add s.pc 2#16

/-- A register write behind the pc advance changes no register but its own, and nothing else but pc. -/
theorem onlyRegs_advance_setV (s : State) (x : Reg) (b : Byte) : OnlyRegs [x] s (s.advance.setV x b) where
  regs _ hr := s.advance.getV_setV_other b (List.ne_of_not_mem_cons hr).symm
  i := rfl
  stack := ⟨rfl, rfl⟩
  timers := ⟨rfl, rfl⟩
  mem _ := rfl
  fb _ _ := rfl
  latches := ⟨rfl, rfl, rfl⟩

/-- The whole effect of an instruction whose meaning is the pc advance and the write of b to Vx. -/
theorem exists_next_of_exec_eq_setV {i : Instr} {s : State} {x : Reg} {b : Byte}
    (h : exec i s = .next (s.advance.setV x b)) :
    ∃ t, exec i s = .next t ∧ t.getV x = b ∧ NextPc s t ∧ OnlyRegs [x] s t :=
  ⟨_, h, s.advance.getV_setV_same x b, nextPc_advance_setV s x b, onlyRegs_advance_setV s x b⟩

/-- Settles O22: each of the five is the pc advance and one register write. -/
theorem loadAndLogicResults : Obligations.LoadAndLogicResults := by
  intro s x y nn
  exact ⟨exists_next_of_exec_eq_setV (exec_ldImm x nn s), exists_next_of_exec_eq_setV (exec_ldReg x y s),
    exists_next_of_exec_eq_setV (exec_orReg x y s), exists_next_of_exec_eq_setV (exec_andReg x y s),
    exists_next_of_exec_eq_setV (exec_xorReg x y s)⟩

/-- Settles O23: the byte written to Vx is the sum of the two operands, taken modulo 256. -/
theorem addImmediateWrapsWithoutFlag : Obligations.AddImmediateWrapsWithoutFlag := by
  intro s x nn
  obtain ⟨t, hexec, hx, hpc, hframe⟩ := exists_next_of_exec_eq_setV (exec_addImm x nn s)
  have hsum : (t.getV x).toNat = ((s.getV x).toNat + nn.toNat) % 256 := by rw [hx, BitVec.toNat_ofNat]
  exact ⟨t, hexec, hsum, hpc, hframe⟩

end Sys2Proof.Machine
end

section
/-! PROOFS. Loads of the index register: each is the pc advance followed by one write of I, whose whole effect is said
once. -/

namespace Sys2Proof.Machine

/-- R140: a 12-bit address keeps its value as a word, so the word's top four bits are 0. -/
@[simp] theorem toNat_zextAddr (nnn : Addr12) : (zextAddr nnn).toNat = nnn.toNat :=
  BitVec.toNat_setWidth_of_le (by decide)

/-- R92: a write of I behind the pc advance leaves pc at the following instruction. -/
theorem nextPc_advance_setI (s : State) (w : Word) : NextPc s (s.advance.setI w) :=
  BitVec.toNat_add s.pc 2#16

/-- The whole effect of an instruction whose meaning is the pc advance and the write to I of a word of value n. -/
theorem exists_next_of_exec_eq_setI {i : Instr} {s : State} {w : Word} {n : Nat}
    (h : exec i s = .next (s.advance.setI w)) (hw : w.toNat = n) :
    ∃ t, exec i s = .next t ∧ t.i.toNat = n ∧ NextPc s t ∧ SameRegsBut [] s t ∧ SameStack s t ∧
      SameTimers s t ∧ SameMem s t ∧ SameFb s t ∧ SameLatches s t :=
  have regs : SameRegsBut [] s (s.advance.setI w) := fun _ _ => rfl
  have mem : SameMem s (s.advance.setI w) := fun _ => rfl
  have fb : SameFb s (s.advance.setI w) := fun _ _ => rfl
  ⟨_, h, hw, nextPc_advance_setI s w, regs, ⟨rfl, rfl⟩, ⟨rfl, rfl⟩, mem, fb, ⟨rfl, rfl, rfl⟩⟩

/-- Settles O29: the word written to I is the address, zero-extended. -/
theorem loadIndexTakesAddress : Obligations.LoadIndexTakesAddress := by
  intro s nnn
  exact exists_next_of_exec_eq_setI (exec_ldI nnn s) (toNat_zextAddr nnn)

end Sys2Proof.Machine
end

section
/-! PROOFS. The framebuffer stands apart from memory (R160, R165): what 00E0 and Dxyn leave unchanged, and that no store
through I reaches a pixel. -/

namespace Sys2Proof.Machine

/-- R160, R165: 00E0 changes nothing but the pixels and pc. -/
theorem frame_of_exec_cls {s t : State} (h : exec .cls s = .next t) :
    SameRegsBut [] s t ∧ SameI s t ∧ SameStack s t ∧ SameTimers s t ∧ SameMem s t ∧ SameLatches s t := by
  obtain rfl : s.advance.setFb Framebuffer.clear = t := Host.Outcome.next.inj ((exec_cls s).symm.trans h)
  exact ⟨fun _ _ => rfl, rfl, ⟨rfl, rfl⟩, ⟨rfl, rfl⟩, fun _ => rfl, ⟨rfl, rfl, rfl⟩⟩

/-- Settles O37: 00E0 is the pc advance and the write of the clear framebuffer. -/
theorem clearScreenClearsEveryPixel : Obligations.ClearScreenClearsEveryPixel := by
  intro s
  exact ⟨_, exec_cls s, Framebuffer.pixel_clear, BitVec.toNat_add s.pc 2#16, frame_of_exec_cls (exec_cls s)⟩

/-- R55, R143: an instruction that touches bytes from I ends with its effect, or without it in an out-of-bounds
access. -/
theorem eq_effect_or_raise_of_withRange {m : Nat} {effect : State → State} {s t : State}
    (h : withRange m effect s = .next t) :
    t = effect s.advance ∨ ∃ a addr, t = s.advance.raise (.outOfBoundsAccess a addr) := by
  obtain ⟨-, heff⟩ | ⟨-, -, hraise⟩ := withRange_cases m effect s
  · exact .inl (Host.Outcome.next.inj (h.symm.trans heff))
  · exact .inr ⟨_, _, Host.Outcome.next.inj (h.symm.trans hraise)⟩

/-- R165: bytes stored from I change no pixel, whether the range check passes or not. -/
theorem sameFb_of_withRange_storeAtI {m : Nat} {bytes : State → List Byte} {s t : State}
    (h : withRange m (fun u => u.storeAtI (bytes u)) s = .next t) : SameFb s t := by
  obtain rfl | ⟨a, addr, rfl⟩ := eq_effect_or_raise_of_withRange h
  · exact fun _ _ => rfl
  · exact fun _ _ => rfl

/-- R161: drawing a sprite writes no register but VF. -/
theorem State.getV_drawSprite_other (s : State) (x y : Reg) (n : Nibble) {r : Reg} (h : r ≠ Reg.flag) :
    (s.drawSprite x y n).getV r = s.getV r :=
  State.getV_setV_other _ _ h.symm

/-- R161, R165: Dxyn changes nothing but the pixels, VF and pc, and status only where it ends with an out-of-bounds
access. -/
theorem frame_of_exec_drw {s t : State} {x y : Reg} {n : Nibble} (h : exec (.drw x y n) s = .next t) :
    SameRegsBut [Reg.flag] s t ∧ SameI s t ∧ SameStack s t ∧ SameTimers s t ∧ SameMem s t ∧ t.key = s.key ∧
      t.draws = s.draws ∧ (t.status = s.status ∨ ∃ a addr, t.status = .faulted (.outOfBoundsAccess a addr)) := by
  obtain rfl | ⟨a, addr, rfl⟩ := eq_effect_or_raise_of_withRange ((exec_drw x y n s).symm.trans h)
  · have regs : SameRegsBut [Reg.flag] s (s.advance.drawSprite x y n) :=
      fun _ hr => s.advance.getV_drawSprite_other x y n (List.ne_of_not_mem_cons hr)
    exact ⟨regs, rfl, ⟨rfl, rfl⟩, ⟨rfl, rfl⟩, fun _ => rfl, rfl, rfl, .inl rfl⟩
  · exact ⟨fun _ _ => rfl, rfl, ⟨rfl, rfl⟩, ⟨rfl, rfl⟩, fun _ => rfl, rfl, rfl, .inr ⟨a, addr, rfl⟩⟩

/-- Settles O41: the frames of 00E0 and Dxyn, and for each of the two stores that its range check and its write reach
memory and status only. -/
theorem framebufferIsApartFromMemory : Obligations.FramebufferIsApartFromMemory := by
  intro s t x y n
  have bcd (h : exec (.ldBVx x) s = .next t) : SameFb s t :=
    sameFb_of_withRange_storeAtI ((exec_ldBVx x s).symm.trans h)
  have block (h : exec (.storeRegs x) s = .next t) : SameFb s t :=
    sameFb_of_withRange_storeAtI ((exec_storeRegs x s).symm.trans h)
  exact ⟨frame_of_exec_cls, frame_of_exec_drw, bcd, block⟩

end Sys2Proof.Machine
end

section
/-! PROOFS. Transfers between a register and a timer (R174, R175, R176): reading the delay timer is a register write, and
writing either timer is a timer write, each behind the pc advance. -/

namespace Sys2Proof.Machine

/-- R192: the sound output is on exactly while the sound timer is not 0. -/
theorem State.soundOn_iff (s : State) : s.soundOn = true ↔ s.st ≠ 0x00#8 :=
  bne_iff_ne

/-- R92, R175, R176: a write of the timers behind the pc advance leaves pc at the following instruction and changes nothing
else. -/
theorem frame_advance_setDt_setSt (s : State) (d e : Byte) {t : State} (h : (s.advance.setDt d).setSt e = t) :
    NextPc s t ∧ SameRegsBut [] s t ∧ SameI s t ∧ SameStack s t ∧ SameMem s t ∧ SameFb s t ∧ SameLatches s t := by
  subst h
  have pc : NextPc s ((s.advance.setDt d).setSt e) := BitVec.toNat_add s.pc 2#16
  exact ⟨pc, fun _ _ => rfl, rfl, ⟨rfl, rfl⟩, fun _ => rfl, fun _ _ => rfl, ⟨rfl, rfl, rfl⟩⟩

/-- Settles O42: Fx07 is a register write; Fx15 and Fx18 are each a write of the timers that keeps the other one, and the
sound output follows the byte written to ST. -/
theorem timerTransfers : Obligations.TimerTransfers := by
  intro s x
  refine ⟨exists_next_of_exec_eq_setV (exec_ldVxDt x s), ⟨_, exec_ldDtVx x s, ?_⟩, ⟨_, exec_ldStVx x s, ?_⟩⟩
  · exact ⟨rfl, rfl, frame_advance_setDt_setSt s (s.getV x) s.st rfl⟩
  · obtain ⟨pc, regs, i, stack, mem, fb, latches⟩ := frame_advance_setDt_setSt s s.dt (s.getV x) rfl
    exact ⟨rfl, rfl, pc, regs, i, stack, mem, fb, latches, (s.advance.setSt (s.getV x)).soundOn_iff⟩

end Sys2Proof.Machine
end

section
/-! PROOFS. The keyboard latch belongs to the host (R33, R195): no instruction, no step, and no host operation but
set_pressed and reset writes it, so neither does a schedule without these two. -/

namespace Sys2Proof.Machine

/-- R103: a skip, taken or not, leaves the latch. -/
@[simp] theorem State.skipIf_key (s : State) (c : Bool) : (s.skipIf c).key = s.key := by
  rw [State.skipIf_eq, State.setPc_key]

/-- R186: clear_fault leaves the latch. -/
@[simp] theorem State.clearFault_key (s : State) : s.clearFault.key = s.key := by
  rw [State.clearFault_eq, State.setStatus_key]

/-- R67: a host load, done or refused, leaves the latch. -/
@[simp] theorem State.hostLoad_key (a : Nat) (b : Byte) (s : State) : (s.hostLoad a b).key = s.key := by
  unfold State.hostLoad
  split
  · exact s.setMem_key _
  · rfl

/-- R190: a tick leaves the latch. -/
@[simp] theorem State.tick_key (s : State) : s.tick.key = s.key := rfl

/-- The latch after an answer whose next state is known. -/
theorem key_of_eq_next {res : Result} {s t u : State} (hu : res = .next u) (h : res = .next t)
    (hkey : u.key = s.key) : t.key = s.key := by
  obtain rfl : u = t := Host.Outcome.next.inj (hu.symm.trans h)
  exact hkey

/-- R143: an instruction that touches bytes from I leaves the latch where its effect does, faulting or not. -/
theorem key_of_withRange {m : Nat} {effect : State → State} {s t : State}
    (heff : (effect s.advance).key = s.key) (h : withRange m effect s = .next t) : t.key = s.key := by
  obtain rfl | ⟨a, addr, rfl⟩ := eq_effect_or_raise_of_withRange h
  · exact heff
  · rfl

/-- R33, R195: no instruction writes the latch: ret and call have two ends each, the skips a condition, the transfers
through I a range check, and every other meaning is one answer by named updates that leave the latch. -/
theorem key_of_exec {i : Instr} {s t : State} (h : exec i s = .next t) : t.key = s.key := by
  cases i
  case ret =>
    obtain ⟨-, hfault⟩ | ⟨w, rest, -, hpop⟩ := exec_ret_cases s
    · exact key_of_eq_next hfault h rfl
    · exact key_of_eq_next hpop h rfl
  case call nnn =>
    obtain ⟨-, hpush⟩ | ⟨-, hfault⟩ := exec_call_cases nnn s
    · exact key_of_eq_next hpush h rfl
    · exact key_of_eq_next hfault h rfl
  case seImm | sneImm | seReg | sneReg | skp | sknp => exact key_of_eq_next rfl h (State.skipIf_key _ _)
  case drw | ldBVx | storeRegs | loadRegs => exact key_of_withRange rfl h
  all_goals exact key_of_eq_next rfl h rfl

/-- R131, R195: nor does one whose random byte the host gives. -/
theorem key_of_execGiven {r : Byte} {i : Instr} {s t : State} (h : execGiven r i s = .next t) : t.key = s.key := by
  by_cases hrnd : ∃ x nn, i = .rnd x nn
  · obtain ⟨x, nn, rfl⟩ := hrnd
    exact key_of_eq_next (execGiven_rnd r x nn s) h rfl
  · push Not at hrnd
    exact key_of_exec ((execGiven_other r i s hrnd).symm.trans h)

/-- R173: a pending key wait reads the latch and leaves it. -/
theorem key_of_keyWait {x : Reg} {s t : State} (h : keyWait x s = .next t) : t.key = s.key := by
  obtain ⟨-, hnone⟩ | ⟨k, -, hsome⟩ := keyWait_cases x s
  · exact key_of_eq_next hnone h rfl
  · exact key_of_eq_next hsome h rfl

/-- R90, R195: no step writes the latch, whatever the status and whatever the fetch answers. -/
theorem key_of_stepGiven {r : Byte} {s t : State} (h : stepGiven r s = .next t) : t.key = s.key := by
  obtain ⟨-, hstay⟩ | ⟨x, -, hwait⟩ | ⟨-, ⟨f, -, hfetch⟩ | ⟨op, i, -, -, hexec⟩ | ⟨op, -, -, hunknown⟩⟩ :=
    stepGiven_cases r s
  · exact key_of_eq_next hstay h rfl
  · exact key_of_keyWait (hwait.symm.trans h)
  · exact key_of_eq_next hfetch h rfl
  · exact key_of_execGiven (hexec.symm.trans h)
  · exact key_of_eq_next hunknown h rfl

/-- R197: of the host's operations, only reset and set_pressed write the latch. -/
theorem key_of_transition {op : HostOp} {s t : State} (hreset : op ≠ .reset) (hset : ∀ k, op ≠ .setPressed k)
    (h : transition op s = .next t) : t.key = s.key := by
  cases op with
  | reset => exact absurd rfl hreset
  | load a b => exact key_of_eq_next rfl h (s.hostLoad_key a b)
  | setPressed k => exact absurd rfl (hset k)
  | clearFault => exact key_of_eq_next rfl h s.clearFault_key
  | tick => exact key_of_eq_next rfl h s.tick_key
  | step r => exact key_of_stepGiven h

/-- A schedule goes on from the state its first operation answers. -/
theorem runOps_cons_of_next {op : HostOp} {ops : List HostOp} {s u : State} (h : transition op s = .next u) :
    runOps (op :: ops) s = runOps ops u := by
  rw [runOps, h]

/-- A schedule that ends in a next state passes through one after its first operation. -/
theorem exists_transition_of_runOps_cons {op : HostOp} {ops : List HostOp} {s t : State}
    (h : runOps (op :: ops) s = .next t) : ∃ u, transition op s = .next u ∧ runOps ops u = .next t := by
  rw [runOps] at h
  cases hop : transition op s with
  | next u => exact ⟨u, rfl, by rwa [hop] at h⟩
  | fault f => rw [hop] at h; cases h
  | refused r => rw [hop] at h; cases h

/-- R191, R195: a schedule without reset and set_pressed leaves the latch. -/
theorem key_of_runOps {ops : List HostOp} {s t : State}
    (hops : ∀ op ∈ ops, op ≠ .reset ∧ ∀ k, op ≠ .setPressed k) (h : runOps ops s = .next t) : t.key = s.key := by
  induction ops generalizing s with
  | nil => exact key_of_eq_next rfl h rfl
  | cons op ops ih =>
    obtain ⟨⟨hreset, hset⟩, hops⟩ := List.forall_mem_cons.1 hops
    obtain ⟨u, hfirst, hrest⟩ := exists_transition_of_runOps_cons h
    calc t.key = u.key := ih hops hrest
      _ = s.key := key_of_transition hreset hset hfirst

/-- Settles O46: set_pressed is the write of the latch alone, and none of the operations that may follow it is a reset or
another set_pressed. -/
theorem onlyTheHostWritesTheKey : Obligations.OnlyTheHostWritesTheKey := by
  intro s k
  refine ⟨rfl, fun ops t hops h => ?_⟩
  have hrest : runOps ops (s.setPressed k) = .next t := (runOps_cons_of_next rfl).symm.trans h
  refine key_of_runOps (fun op hop => ?_) hrest
  obtain ⟨r, rfl⟩ | rfl | rfl | ⟨a, b, rfl⟩ := hops op hop <;> exact ⟨nofun, fun _ => nofun⟩

end Sys2Proof.Machine
end

section
/-! PROOFS. The decoder and the encoder are inverse to each other (R70, R72, R75). -/

namespace Sys2Proof

/-- R75: every instruction's word matches a row of the table that builds the instruction back. -/
theorem Laws.Encoding.statement (i : Instr) : Laws.Encoding.Statement i := by
  cases i with
  | halt => exact halt
  | cls => exact cls
  | ret => exact ret
  | jp nnn => exact jp nnn
  | call nnn => exact call nnn
  | seImm x nn => exact seImm x nn
  | sneImm x nn => exact sneImm x nn
  | seReg x y => exact seReg x y
  | ldImm x nn => exact ldImm x nn
  | addImm x nn => exact addImm x nn
  | ldReg x y => exact ldReg x y
  | orReg x y => exact orReg x y
  | andReg x y => exact andReg x y
  | xorReg x y => exact xorReg x y
  | addReg x y => exact addReg x y
  | subReg x y => exact subReg x y
  | shr x y => exact shr x y
  | subnReg x y => exact subnReg x y
  | shl x y => exact shl x y
  | sneReg x y => exact sneReg x y
  | ldI nnn => exact ldI nnn
  | jpV0 nnn => exact jpV0 nnn
  | rnd x nn => exact rnd x nn
  | drw x y n => exact drw x y n
  | skp x => exact skp x
  | sknp x => exact sknp x
  | ldVxDt x => exact ldVxDt x
  | ldVxK x => exact ldVxK x
  | ldDtVx x => exact ldDtVx x
  | ldStVx x => exact ldStVx x
  | addIVx x => exact addIVx x
  | ldFVx x => exact ldFVx x
  | ldBVx x => exact ldBVx x
  | storeRegs x => exact storeRegs x
  | loadRegs x => exact loadRegs x

/-- R70, R72, R75: an instruction's word decodes to the instruction. -/
@[simp] theorem decodeWord_encode (i : Instr) : decodeWord (encode i) = .ok i := by
  obtain ⟨r, hr, hm, hbuild⟩ := Laws.Encoding.statement i
  rw [decodeWord_of_row hr hm, hbuild]

/-- Settles O2: the row an instruction's word matches builds the instruction back. -/
theorem decodeOfEncodedInstr : Obligations.DecodeOfEncodedInstr := by
  intro i
  exact decodeWord_encode i

/-! ### a word from the fields that are fixed and those that are read -/

/-- The format A word of a known opcode nibble. -/
theorem encodeA_of_top {op : Word} {o : Nibble} (ho : op.extractLsb' 12 4 = o) :
    encodeA o (fieldsOf op).nnn = op := by
  rw [← ho, encodeA_fields]

/-- The format XN word of a known opcode nibble. -/
theorem encodeXN_of_top {op : Word} {o : Nibble} (ho : op.extractLsb' 12 4 = o) :
    encodeXN o (fieldsOf op).x (fieldsOf op).nn = op := by
  rw [← ho, encodeXN_fields]

/-- The format X word of a known opcode nibble and low byte. -/
theorem encodeXN_of_top_low {op : Word} {o : Nibble} {nn : Byte} (ho : op.extractLsb' 12 4 = o)
    (hnn : op.extractLsb' 0 8 = nn) : encodeXN o (fieldsOf op).x nn = op := by
  rw [← hnn]
  exact encodeXN_of_top ho

/-- The format XYN word of a known opcode nibble. -/
theorem encodeXY_of_top {op : Word} {o : Nibble} (ho : op.extractLsb' 12 4 = o) :
    encodeXY o (fieldsOf op).x (fieldsOf op).y (fieldsOf op).n = op := by
  rw [← ho, encodeXY_fields]

/-- The format XY word of a known opcode nibble and low nibble. -/
theorem encodeXY_of_top_low {op : Word} {o n : Nibble} (ho : op.extractLsb' 12 4 = o)
    (hn : op.extractLsb' 0 4 = n) : encodeXY o (fieldsOf op).x (fieldsOf op).y n = op := by
  rw [← hn]
  exact encodeXY_of_top ho

/-- R75: a word is the word of what any row it matches builds from its fields. -/
theorem encode_build_of_row {op : Word} :
    ∀ r ∈ decodeTable, op &&& r.mask = r.pattern → encode (r.build (fieldsOf op)) = op := by
  have word {p : Word} (h : op &&& 0xFFFF#16 = p) : p = op := h.symm.trans (BitVec.and_allOnes (x := op))
  have a {p : Word} (h : op &&& 0xF000#16 = p) := encodeA_of_top (extractLsb'_of_mask h 12 4 (by decide))
  have xn {p : Word} (h : op &&& 0xF000#16 = p) := encodeXN_of_top (extractLsb'_of_mask h 12 4 (by decide))
  have xyn {p : Word} (h : op &&& 0xF000#16 = p) := encodeXY_of_top (extractLsb'_of_mask h 12 4 (by decide))
  have xy {p : Word} (h : op &&& 0xF00F#16 = p) :=
    encodeXY_of_top_low (extractLsb'_of_mask h 12 4 (by decide)) (extractLsb'_of_mask h 0 4 (by decide))
  have x {p : Word} (h : op &&& 0xF0FF#16 = p) :=
    encodeXN_of_top_low (extractLsb'_of_mask h 12 4 (by decide)) (extractLsb'_of_mask h 0 8 (by decide))
  simp only [decodeTable, List.cons_append, List.nil_append, List.forall_mem_cons]
  exact ⟨word, word, word, a, a, xn, xn, xy, xn, xn, xy, xy, xy, xy, xy, xy, xy, xy, xy, xy, a, a, xn, xyn, x, x, x, x, x,
    x, x, x, x, x, x, List.forall_mem_nil _⟩

/-- R75: the word of what a word decodes to is that word. -/
theorem encode_of_decodeWord {op : Word} {i : Instr} (h : decodeWord op = .ok i) : encode i = op := by
  obtain ⟨r, hr, hm, hok⟩ | ⟨-, herr⟩ := decodeWord_cases op
  · obtain rfl : r.build (fieldsOf op) = i := Except.ok.inj (hok.symm.trans h)
    exact encode_build_of_row r hr (beq_iff_eq.1 hm)
  · cases herr.symm.trans h

/-- Settles O3: the fixed bits of a word are those of the row it matches, and the others are the fields the row reads. -/
theorem encodeOfDecodedWord : Obligations.EncodeOfDecodedWord := by
  intro op i h
  exact encode_of_decodeWord h

end Sys2Proof
end

section
/-! PROOFS. The words that decode are exactly the well-formed ones (R77, R79): every instruction's word is well formed, and
every well-formed word is some instruction's. -/

namespace Sys2Proof

/-- The top nibble of a format A word. -/
@[simp] theorem top_encodeA (o : Nibble) (nnn : Addr12) : (encodeA o nnn).extractLsb' 12 4 = o :=
  BitVec.extractLsb'_append_eq_left

/-- The low byte of a format XN word. -/
@[simp] theorem lowByte_encodeXN (o : Nibble) (x : Reg) (nn : Byte) : (encodeXN o x nn).extractLsb' 0 8 = nn :=
  nn_encodeXN o x nn

/-- The low nibble of a format XY word. -/
@[simp] theorem low_encodeXY (o : Nibble) (x y : Reg) (n : Nibble) : (encodeXY o x y n).extractLsb' 0 4 = n :=
  n_encodeXY o x y n

/-- The top nibble of a format XN word. -/
@[simp] theorem top_encodeXN (o : Nibble) (x : Reg) (nn : Byte) : (encodeXN o x nn).extractLsb' 12 4 = o := by
  refine ext_getLsbD fun k hk => ?_
  simp [getLsbD_encodeXN, hk, show ¬ 12 + k < 8 by omega, show ¬ 12 + k - 8 < 4 by omega,
    show 12 + k - 8 - 4 = k by omega]

/-- The top nibble of a format XY word. -/
@[simp] theorem top_encodeXY (o : Nibble) (x y : Reg) (n : Nibble) : (encodeXY o x y n).extractLsb' 12 4 = o := by
  refine ext_getLsbD fun k hk => ?_
  simp [getLsbD_encodeXY, hk, show ¬ 12 + k < 4 by omega, show ¬ 12 + k - 4 < 4 by omega,
    show ¬ 12 + k - 4 - 4 < 4 by omega, show 12 + k - 4 - 4 - 4 = k by omega]

/-- R77: every instruction's word is well formed. -/
theorem wellFormedWord_encode (i : Instr) : wellFormedWord (encode i) = true := by
  cases i
  case halt | cls | ret => decide
  all_goals simp [wellFormedWord, encode]

/-- R75: the low nibbles of the ALU's rows: those R77 does not list for the top nibble 8. -/
theorem aluNibble_cases : ∀ n : Nibble, (! [0x8, 0x9, 0xA, 0xB, 0xC, 0xD, 0xF].contains n.toNat) = true →
    n = 0x0#4 ∨ n = 0x1#4 ∨ n = 0x2#4 ∨ n = 0x3#4 ∨ n = 0x4#4 ∨ n = 0x5#4 ∨ n = 0x6#4 ∨ n = 0x7#4 ∨ n = 0xE#4 := by
  decide

/-- R75, R77: the top nibbles every word of which is an instruction. -/
theorem openNibble_cases : ∀ o : Nibble, o.toNat ≠ 0x0 → o.toNat ≠ 0x5 → o.toNat ≠ 0x8 → o.toNat ≠ 0x9 → o.toNat ≠ 0xE →
    o.toNat ≠ 0xF → o = 0x1#4 ∨ o = 0x2#4 ∨ o = 0x3#4 ∨ o = 0x4#4 ∨ o = 0x6#4 ∨ o = 0x7#4 ∨ o = 0xA#4 ∨ o = 0xB#4 ∨
      o = 0xC#4 ∨ o = 0xD#4 := by
  decide

/-- R77: every well-formed word is some instruction's word. -/
theorem exists_encode_of_wellFormedWord {op : Word} (h : wellFormedWord op = true) : ∃ i, encode i = op := by
  have nibble {n k : Nibble} (h : n.toNat = k.toNat) : n = k := BitVec.eq_of_toNat_eq h
  have byte {b k : Byte} (h : b.toNat = k.toNat) : b = k := BitVec.eq_of_toNat_eq h
  unfold wellFormedWord at h
  dsimp only at h
  split at h
  case h_1 =>
    simp only [List.contains_iff_mem, List.mem_cons, List.not_mem_nil, or_false] at h
    obtain rfl | rfl | rfl := h
    · exact ⟨.halt, rfl⟩
    · exact ⟨.cls, rfl⟩
    · exact ⟨.ret, rfl⟩
  case h_2 ho => exact ⟨.seReg _ _, encodeXY_of_top_low (nibble ho) (nibble (beq_iff_eq.1 h))⟩
  case h_3 ho =>
    have xy {n : Nibble} := @encodeXY_of_top_low op 0x8#4 n (nibble ho)
    obtain hn | hn | hn | hn | hn | hn | hn | hn | hn := aluNibble_cases _ h
    · exact ⟨.ldReg _ _, xy hn⟩
    · exact ⟨.orReg _ _, xy hn⟩
    · exact ⟨.andReg _ _, xy hn⟩
    · exact ⟨.xorReg _ _, xy hn⟩
    · exact ⟨.addReg _ _, xy hn⟩
    · exact ⟨.subReg _ _, xy hn⟩
    · exact ⟨.shr _ _, xy hn⟩
    · exact ⟨.subnReg _ _, xy hn⟩
    · exact ⟨.shl _ _, xy hn⟩
  case h_4 ho => exact ⟨.sneReg _ _, encodeXY_of_top_low (nibble ho) (nibble (beq_iff_eq.1 h))⟩
  case h_5 ho =>
    have x {b : Byte} (hb : _ = b.toNat) := @encodeXN_of_top_low op 0xE#4 b (nibble ho) (byte hb)
    simp only [List.contains_iff_mem, List.mem_cons, List.not_mem_nil, or_false] at h
    obtain hb | hb := h
    · exact ⟨.skp _, x hb⟩
    · exact ⟨.sknp _, x hb⟩
  case h_6 ho =>
    have x {b : Byte} (hb : _ = b.toNat) := @encodeXN_of_top_low op 0xF#4 b (nibble ho) (byte hb)
    simp only [List.contains_iff_mem, List.mem_cons, List.not_mem_nil, or_false] at h
    obtain hb | hb | hb | hb | hb | hb | hb | hb | hb := h
    · exact ⟨.ldVxDt _, x hb⟩
    · exact ⟨.ldVxK _, x hb⟩
    · exact ⟨.ldDtVx _, x hb⟩
    · exact ⟨.ldStVx _, x hb⟩
    · exact ⟨.addIVx _, x hb⟩
    · exact ⟨.ldFVx _, x hb⟩
    · exact ⟨.ldBVx _, x hb⟩
    · exact ⟨.storeRegs _, x hb⟩
    · exact ⟨.loadRegs _, x hb⟩
  case h_7 h0 h5 h8 h9 hE hF =>
    obtain ho | ho | ho | ho | ho | ho | ho | ho | ho | ho := openNibble_cases _ h0 h5 h8 h9 hE hF
    · exact ⟨.jp _, encodeA_of_top ho⟩
    · exact ⟨.call _, encodeA_of_top ho⟩
    · exact ⟨.seImm _ _, encodeXN_of_top ho⟩
    · exact ⟨.sneImm _ _, encodeXN_of_top ho⟩
    · exact ⟨.ldImm _ _, encodeXN_of_top ho⟩
    · exact ⟨.addImm _ _, encodeXN_of_top ho⟩
    · exact ⟨.ldI _, encodeA_of_top ho⟩
    · exact ⟨.jpV0 _, encodeA_of_top ho⟩
    · exact ⟨.rnd _ _, encodeXN_of_top ho⟩
    · exact ⟨.drw _ _ _, encodeXY_of_top ho⟩

/-- R77, R79: a word decodes exactly where it is well formed. -/
theorem wellFormedWord_iff_decodes (op : Word) : wellFormedWord op = true ↔ ∃ i, decodeWord op = .ok i := by
  constructor
  · intro h
    obtain ⟨i, rfl⟩ := exists_encode_of_wellFormedWord h
    exact ⟨i, decodeWord_encode i⟩
  · rintro ⟨i, h⟩
    rw [← encode_of_decodeWord h]
    exact wellFormedWord_encode i

/-- R77, R79: a word is unknown exactly where the decoder rejects it by name. -/
theorem wellFormedWord_eq_false_iff (op : Word) :
    wellFormedWord op = false ↔ decodeWord op = .error (.unknownOpcode op) := by
  rw [Bool.eq_false_iff, ne_eq, wellFormedWord_iff_decodes]
  obtain ⟨r, -, -, hok⟩ | ⟨-, herr⟩ := decodeWord_cases op
  · simp [hok]
  · simp [herr]

/-- Settles O5: each word of an instruction is well formed, and each well-formed word is one. -/
theorem rejectedWordsAreTheUnknownOnes : Obligations.RejectedWordsAreTheUnknownOnes := by
  intro op
  exact wellFormedWord_eq_false_iff op

/-- Settles O6: five of the words are their instructions' words, and the sixth is not well formed. -/
theorem listedWordsDecode : Obligations.ListedWordsDecode :=
  ⟨decodeWord_encode (.call 0x210#12), decodeWord_encode (.shr 0x4#4 0xA#4), decodeWord_encode (.addIVx 0x2#4),
    decodeWord_encode (.drw 0x0#4 0x1#4 0x1#4), decodeWord_encode (.skp 0x2#4),
    (wellFormedWord_eq_false_iff 0x5121#16).1 (by decide)⟩

end Sys2Proof
end

section
/-! PROOFS. One step of the machine (R90 to R94): what each kind of start makes of it, whatever gives the instructions their
meaning, so that `step` and `stepGiven` are both read from the same lemmas. -/

namespace Sys2Proof.Machine

/-- R184: what a fault raised behind the pc advance leaves. -/
theorem afterFault_eq (f : Fault) (s : State) : afterFault f s = s.advance.raise f := rfl

variable {run : Instr → State → Result} {s : State}

/-- R185: a step from Halted or Faulted changes nothing. -/
theorem stepBy_of_stopped (h : s.status = .halted ∨ ∃ f, s.status = .faulted f) : stepBy run s = .next s := by
  obtain hs | ⟨f, hs⟩ := h <;> rw [stepBy, hs] <;> rfl

/-- R173: a step from Waiting(x) is the pending key wait. -/
theorem stepBy_of_waiting {x : Reg} (h : s.status = .waiting x) : stepBy run s = keyWait x s := by
  rw [stepBy, h]

/-- R91: a step of the Running machine whose fetch faults raises that fault. -/
theorem stepBy_of_fetch_error {f : Fault} (hs : s.status = .running) (hf : s.fetch = .error f) :
    stepBy run s = .next (s.raise f) := by
  rw [stepBy, hs, fetchDecodeExecute, hf]
  rfl

/-- R94: a step of the Running machine runs the instruction it fetches. -/
theorem stepBy_of_fetched {i : Instr} (h : Fetched i s) : stepBy run s = run i s := by
  obtain ⟨hs, op, hf, hd⟩ := h
  simp only [stepBy, hs, fetchDecodeExecute, hf, hd]

/-- R94: a step of the Running machine that fetches an unknown word raises UnknownOpcode behind the pc advance. -/
theorem stepBy_of_unknown {op : Word} (hs : s.status = .running) (hf : s.fetch = .ok op)
    (hop : wellFormedWord op = false) : stepBy run s = .next (afterFault (.unknownOpcode s.pc op) s) := by
  simp only [stepBy, hs, fetchDecodeExecute, hf, (wellFormedWord_eq_false_iff op).1 hop]
  rfl

/-- R90: two meanings that agree on the fetched instruction make the same step. -/
theorem stepBy_congr {run' : Instr → State → Result} (h : ∀ i, Fetched i s → run i s = run' i s) :
    stepBy run s = stepBy run' s := by
  obtain ⟨hstop, -⟩ | ⟨x, hwait, -⟩ | ⟨hs, ⟨f, hf, -⟩ | ⟨op, i, hf, hd, -⟩ | ⟨op, hf, hd, -⟩⟩ := stepBy_cases run s
  · rw [stepBy_of_stopped hstop, stepBy_of_stopped hstop]
  · rw [stepBy_of_waiting hwait, stepBy_of_waiting hwait]
  · rw [stepBy_of_fetch_error hs hf, stepBy_of_fetch_error hs hf]
  · have hfetched : Fetched i s := ⟨hs, op, hf, hd⟩
    rw [stepBy_of_fetched hfetched, stepBy_of_fetched hfetched, h i hfetched]
  · have hop := (wellFormedWord_eq_false_iff op).2 hd
    rw [stepBy_of_unknown hs hf hop, stepBy_of_unknown hs hf hop]

/-- R91: with both bytes inside memory, the machine fetches the instruction the two decode to. -/
theorem fetched_of_decodeWord {i : Instr} (hs : s.status = .running) (hpc : s.pc.toNat + 1 < 4096)
    (hd : decodeWord (wordOfBytes (Memory.read s.mem s.pc.toNat) (Memory.read s.mem (s.pc.toNat + 1))) = .ok i) :
    Fetched i s :=
  ⟨hs, _, State.fetch_of_pc_lt hpc, hd⟩

/-- R91: an instruction that is fetched has both its bytes inside memory. -/
theorem pc_lt_of_fetch_ok {op : Word} (h : s.fetch = .ok op) : s.pc.toNat + 1 < 4096 := by
  obtain ⟨hpc, -⟩ | ⟨-, herr⟩ | ⟨-, herr⟩ := s.fetch_cases
  · exact hpc
  · cases herr.symm.trans h
  · cases herr.symm.trans h

end Sys2Proof.Machine
end

section
/-! PROOFS. The step cycle: which fault, halt or instruction a Running machine's step is (R91 to R94), and that a stopped
machine stays (R185). -/

namespace Sys2Proof.Machine

/-- Settles O8: the two ways a fetch can fail, each with its address. -/
theorem fetchFaultLatches : Obligations.FetchFaultLatches := by
  intro s hs
  obtain ⟨hpc, -⟩ | ⟨hlast, herr⟩ | ⟨hout, herr⟩ := s.fetch_cases
  · exact ⟨fun h => by omega, fun h => by omega⟩
  · exact ⟨fun _ => stepBy_of_fetch_error hs herr, fun h => by omega⟩
  · exact ⟨fun h => by omega, fun _ => stepBy_of_fetch_error hs herr⟩

/-- R70: two bytes decode to an instruction exactly as the word of the two does. -/
theorem decodeWord_of_decodeBytes_pair {b0 b1 : Byte} {i : Instr} {rest : List Byte}
    (h : decodeBytes [b0, b1] = .ok (i, rest)) : decodeWord (wordOfBytes b0 b1) = .ok i := by
  rw [decodeBytes] at h
  cases hd : decodeWord (wordOfBytes b0 b1) with
  | ok j =>
    simp only [hd, Except.ok.injEq, Prod.mk.injEq] at h
    rw [h.1]
  | error e => simp [hd] at h

/-- Settles O9: the two bytes at pc are the word that is fetched. -/
theorem stepRunsDecodedInstr : Obligations.StepRunsDecodedInstr := by
  intro s i hs hpc hbytes
  exact stepBy_of_fetched (fetched_of_decodeWord hs hpc (decodeWord_of_decodeBytes_pair hbytes))

/-- Settles O10: a word that is not well formed decodes to nothing. -/
theorem unknownWordLatches : Obligations.UnknownWordLatches := by
  intro s op hs hf hop
  exact stepBy_of_unknown hs hf hop

/-- Settles O12: the word of two zero bytes is the halt word. -/
theorem zeroWordHalts : Obligations.ZeroWordHalts := by
  refine fun s => ⟨exec_halt s, fun hs hpc h0 h1 => ?_⟩
  have hd : decodeWord (wordOfBytes (Memory.read s.mem s.pc.toNat) (Memory.read s.mem (s.pc.toNat + 1))) = .ok .halt := by
    rw [h0, h1]
    exact decodeWord_encode .halt
  exact stepBy_of_fetched (fetched_of_decodeWord hs hpc hd)

/-- Settles O13: the step looks at status first. -/
theorem stoppedMachineStays : Obligations.StoppedMachineStays := by
  intro s h
  exact stepBy_of_stopped h

/-! ### a placed word -/

/-- R56: a word is the big-endian word of its two bytes. -/
theorem wordOfBytes_extract (op : Word) : wordOfBytes (op.extractLsb' 8 8) (op.extractLsb' 0 8) = op := by
  refine ext_getLsbD fun k hk => ?_
  rw [wordOfBytes, BitVec.getLsbD_append, BitVec.getLsbD_extractLsb', BitVec.getLsbD_extractLsb']
  split
  · simp [*]
  · rw [show 8 + (k - 8) = k by omega]
    simp [show k - 8 < 8 by omega]

/-- Where a word is placed the machine is Running, with both the word's bytes inside memory. -/
theorem State.fetchable_running (s : State) : s.fetchable.status = .running ∧ s.fetchable.pc.toNat + 1 < 4096 := by
  unfold State.fetchable
  split
  case isTrue h => exact ⟨rfl, h⟩
  case isFalse => exact ⟨rfl, (by decide : (BitVec.ofNat 16 Config.loadBase).toNat + 1 < 4096)⟩

/-- R56, R91: a placed word is the one fetched. -/
theorem State.fetch_placeWord (s : State) (op : Word) : (s.placeWord op).fetch = .ok op := by
  obtain ⟨-, hpc⟩ := s.fetchable_running
  have hread (k : Nat) (hk : k < (bytesOfWord op).length) :
      Memory.read (s.placeWord op).mem (s.fetchable.pc.toNat + k) = (bytesOfWord op)[k] :=
    Memory.read_writeBytes_inside _ _ _ k hk hpc
  have h0 : Memory.read (s.placeWord op).mem (s.placeWord op).pc.toNat = op.extractLsb' 8 8 := hread 0 Nat.zero_lt_two
  have h1 : Memory.read (s.placeWord op).mem ((s.placeWord op).pc.toNat + 1) = op.extractLsb' 0 8 :=
    hread 1 Nat.one_lt_two
  have hpc' : (s.placeWord op).pc.toNat + 1 < 4096 := hpc
  rw [State.fetch_of_pc_lt hpc', h0, h1, wordOfBytes_extract]

/-- A word's own bits, given to the table's 16-bit reading, are the word. -/
theorem tableWord_toNat (op : Word) : tableWord 16 op.toNat = op := by
  rw [tableWord, Nat.mod_eq_of_lt op.isLt, BitVec.ofNat_toNat, BitVec.setWidth_eq]

/-- Settles O11: the placed word is fetched, and decodes to the instruction it was built from. -/
theorem placedInstrRuns : Obligations.PlacedInstrRuns := by
  intro s i
  refine stepBy_of_fetched ⟨s.fetchable_running.1, encode i, ?_, decodeWord_encode i⟩
  rw [State.withFetchWord, tableWord_toNat, State.fetch_placeWord]

end Sys2Proof.Machine
end

section
/-! PROOFS. What an instruction can answer, as rules for any property of its next state, and the two uses that need every
instruction: that it always answers one (R90, R181), and which fields of it may differ (R24 to R37). -/

namespace Sys2Proof.Machine

variable {P : State → Prop} {s t u : State} {res : Result}

/-- What holds of the state an answer is known to carry holds of every state it carries. -/
theorem of_eq_next (hu : res = .next u) (h : res = .next t) (hP : P u) : P t := by
  obtain rfl : u = t := Host.Outcome.next.inj (hu.symm.trans h)
  exact hP

/-- A field of the state an answer is known to carry is that of every state it carries. -/
theorem field_of_eq_next {α : Type} {field : State → α} {a : α} (hu : res = .next u) (h : res = .next t)
    (hfield : field u = a) : field t = a :=
  of_eq_next (P := fun v => field v = a) hu h hfield

/-- R55, R143: what holds of a transfer's effect and of its fault holds of what it leaves. -/
theorem of_withRange {m : Nat} {effect : State → State} (h : withRange m effect s = .next t)
    (heff : P (effect s.advance)) (hraise : ∀ a addr, P (s.advance.raise (.outOfBoundsAccess a addr))) : P t := by
  obtain rfl | ⟨a, addr, rfl⟩ := eq_effect_or_raise_of_withRange h
  · exact heff
  · exact hraise a addr

/-- R100: what holds of 00EE's fault and of its return holds of what it leaves. -/
theorem of_exec_ret (h : exec .ret s = .next t)
    (hfault : s.stack = [] → P (s.advance.raise (.stackUnderflow s.pc)))
    (hpop : ∀ w rest, s.stack = w :: rest → P ((s.advance.setStack rest).setPc w)) : P t := by
  obtain ⟨hs, hret⟩ | ⟨w, rest, hs, hret⟩ := exec_ret_cases s
  · exact of_eq_next hret h (hfault hs)
  · exact of_eq_next hret h (hpop w rest hs)

/-- R102: what holds of 2nnn's jump and of its fault holds of what it leaves. -/
theorem of_exec_call {nnn : Addr12} (h : exec (.call nnn) s = .next t)
    (hpush : s.stack.length < s.stackDepth →
      P ((s.advance.setStack ((s.pc + 2#16) :: s.stack)).setPc (zextAddr nnn)))
    (hfault : s.stackDepth ≤ s.stack.length → P (s.advance.raise (.stackOverflow s.pc))) : P t := by
  obtain ⟨hs, hcall⟩ | ⟨hs, hcall⟩ := exec_call_cases nnn s
  · exact of_eq_next hcall h (hpush hs)
  · exact of_eq_next hcall h (hfault hs)

/-! ### every answer is a next state -/

/-- R55, R184: a transfer answers a next state, in range or not. -/
theorem exists_next_withRange (m : Nat) (effect : State → State) (s : State) :
    ∃ t, withRange m effect s = .next t := by
  obtain ⟨-, h⟩ | ⟨-, -, h⟩ := withRange_cases m effect s <;> exact ⟨_, h⟩

/-- R184: every meaning answers a next state. -/
theorem exists_next_exec (i : Instr) (s : State) : ∃ t, exec i s = .next t := by
  cases i
  case ret => obtain ⟨-, h⟩ | ⟨w, rest, -, h⟩ := exec_ret_cases s <;> exact ⟨_, h⟩
  case call nnn => obtain ⟨-, h⟩ | ⟨-, h⟩ := exec_call_cases nnn s <;> exact ⟨_, h⟩
  case drw | ldBVx | storeRegs | loadRegs => exact exists_next_withRange _ _ s
  all_goals exact ⟨_, rfl⟩

/-- R131, R184: so does every meaning that is given its random byte. -/
theorem exists_next_execGiven (r : Byte) (i : Instr) (s : State) : ∃ t, execGiven r i s = .next t := by
  by_cases hrnd : ∃ x nn, i = .rnd x nn
  · obtain ⟨x, nn, rfl⟩ := hrnd
    exact ⟨_, execGiven_rnd r x nn s⟩
  · push Not at hrnd
    rw [execGiven_other r i s hrnd]
    exact exists_next_exec i s

/-- R90, R181: a step answers a next state where every meaning does. -/
theorem exists_next_stepBy {run : Instr → State → Result} (hrun : ∀ i, ∃ t, run i s = .next t) :
    ∃ t, stepBy run s = .next t := by
  obtain ⟨-, h⟩ | ⟨x, -, h⟩ | ⟨-, ⟨f, -, h⟩ | ⟨op, i, -, -, h⟩ | ⟨op, -, -, h⟩⟩ := stepBy_cases run s
  · exact ⟨_, h⟩
  · obtain ⟨-, hwait⟩ | ⟨k, -, hwait⟩ := keyWait_cases x s <;> exact ⟨_, h.trans hwait⟩
  · exact ⟨_, h⟩
  · rw [h]
    exact hrun i
  · exact ⟨_, h⟩

/-- Settles O55: stopping, waiting and faulting are next states, and so is every meaning's answer. -/
theorem everyStepAnswersNextState : Obligations.EveryStepAnswersNextState :=
  fun s => ⟨exists_next_stepBy fun i => exists_next_exec i s,
    fun r => exists_next_stepBy fun i => exists_next_execGiven r i s⟩

/-! ### the writers of each field -/

/-- R24 to R37: which fields of State an instruction may have left other than it found them. -/
def WritesOnlyItsFields (i : Instr) (s t : State) : Prop :=
  t.key = s.key ∧
  (t.i ≠ s.i → (∃ nnn, i = .ldI nnn) ∨ (∃ x, i = .addIVx x ∨ i = .ldFVx x)) ∧
  (t.stack ≠ s.stack → i = .ret ∨ ∃ nnn, i = .call nnn) ∧
  (t.dt ≠ s.dt → ∃ x, i = .ldDtVx x) ∧
  (t.st ≠ s.st → ∃ x, i = .ldStVx x) ∧
  (t.mem ≠ s.mem → ∃ x, i = .ldBVx x ∨ i = .storeRegs x) ∧
  (t.fb ≠ s.fb → i = .cls ∨ ∃ x y n, i = .drw x y n) ∧
  (t.draws ≠ s.draws → ∃ x nn, i = .rnd x nn) ∧
  t.stackDepth = s.stackDepth

/-- R103: a skip writes no field but pc. -/
theorem writesOnlyItsFields_skipIf (i : Instr) (s : State) (c : Bool) :
    WritesOnlyItsFields i s (s.advance.skipIf c) := by
  simp [WritesOnlyItsFields, State.skipIf_eq]

/-- R184: a fault behind the advance writes no field but pc and status. -/
theorem writesOnlyItsFields_raise (i : Instr) (s : State) (f : Fault) :
    WritesOnlyItsFields i s (s.advance.raise f) := by
  simp [WritesOnlyItsFields]

/-- R133: a result and its flag are written to V alone. -/
theorem writesOnlyItsFields_setResultAndFlag (i : Instr) (s : State) (x : Reg) (b f : Byte) :
    WritesOnlyItsFields i s (s.advance.setResultAndFlag x b f) := by
  simp [WritesOnlyItsFields, State.setResultAndFlag]

/-- R24 to R37: an instruction writes only the fields the spec names it for. -/
theorem writesOnlyItsFields_of_exec {i : Instr} (h : exec i s = .next t) : WritesOnlyItsFields i s t := by
  cases i
  case ret =>
    exact of_exec_ret h (fun _ => writesOnlyItsFields_raise _ _ _) fun _ _ _ => by simp [WritesOnlyItsFields]
  case call =>
    exact of_exec_call h (fun _ => by simp [WritesOnlyItsFields]) fun _ => writesOnlyItsFields_raise _ _ _
  case seImm | sneImm | seReg | sneReg | skp | sknp =>
    exact of_eq_next rfl h (writesOnlyItsFields_skipIf _ _ _)
  case addReg | subReg | shr | subnReg | shl =>
    exact of_eq_next rfl h (writesOnlyItsFields_setResultAndFlag _ _ _ _ _)
  case drw =>
    exact of_withRange h (by simp [WritesOnlyItsFields, State.drawSprite, State.putBlit])
      fun _ _ => writesOnlyItsFields_raise _ _ _
  case ldBVx | storeRegs =>
    exact of_withRange h (by simp [WritesOnlyItsFields, State.storeAtI]) fun _ _ => writesOnlyItsFields_raise _ _ _
  case loadRegs =>
    exact of_withRange h (by simp [WritesOnlyItsFields, State.loadBlock]) fun _ _ => writesOnlyItsFields_raise _ _ _
  all_goals exact of_eq_next rfl h (by simp [WritesOnlyItsFields])

/-- Settles O53: by the instruction's meaning. -/
theorem eachFieldHasItsWriters : Obligations.EachFieldHasItsWriters := by
  intro i s t h
  exact writesOnlyItsFields_of_exec h

end Sys2Proof.Machine
end

section
/-! PROOFS. The machine's invariant (R27, R28, R36, R183): it holds at reset, and every meaning, every step and every
operation of the host keeps it. -/

namespace Sys2Proof.Machine

variable {s t : State}

/-! ### the updates -/

/-- The invariant speaks of memory, the stack, pc and status only. -/
theorem State.Inv.of_same (h : s.Inv) (hmem : t.mem = s.mem) (hstack : t.stack = s.stack)
    (hdepth : t.stackDepth = s.stackDepth) (hpc : t.pc = s.pc) (hstatus : t.status = s.status) : t.Inv where
  mem := hmem ▸ h.mem
  depth := hstack ▸ hdepth ▸ h.depth
  returns := hstack ▸ h.returns
  pc := hpc ▸ h.pc
  status := hstatus ▸ h.status

theorem State.Inv.setPc (h : s.Inv) {w : Word} (hw : w.toNat ≤ 0x10FE) : (s.setPc w).Inv :=
  ⟨h.mem, h.depth, h.returns, hw, h.status⟩

theorem State.Inv.setStatus (h : s.Inv) {u : Status} (hu : u.wf) : (s.setStatus u).Inv :=
  ⟨h.mem, h.depth, h.returns, h.pc, hu⟩

theorem State.Inv.raise (h : s.Inv) {f : Fault} (hf : f.wf) : (s.raise f).Inv :=
  h.setStatus hf

theorem State.Inv.setMem (h : s.Inv) {m : Memory} (hm : Memory.wf m) : (s.setMem m).Inv :=
  ⟨hm, h.depth, h.returns, h.pc, h.status⟩

/-- R29: one more return address, where there is room for it. -/
theorem State.Inv.push (h : s.Inv) {w : Word} (hroom : s.stack.length < s.stackDepth) (hw : w.toNat ≤ 4096) :
    (s.setStack (w :: s.stack)).Inv :=
  ⟨h.mem, hroom, List.forall_mem_cons.2 ⟨hw, h.returns⟩, h.pc, h.status⟩

/-- R30: one return address less. -/
theorem State.Inv.pop (h : s.Inv) {w : Word} {rest : List Word} (hs : s.stack = w :: rest) :
    (s.setStack rest).Inv ∧ w.toNat ≤ 4096 := by
  have hlen : rest.length + 1 ≤ s.stackDepth := by simpa [hs] using h.depth
  have hret : ∀ a ∈ w :: rest, a.toNat ≤ 4096 := hs ▸ h.returns
  obtain ⟨hw, hrest⟩ := List.forall_mem_cons.1 hret
  exact ⟨⟨h.mem, Nat.le_of_succ_le hlen, hrest, h.pc, h.status⟩, hw⟩

/-- R27: two bytes on, pc is in bounds wherever it leaves room for them. -/
theorem State.Inv.advance (h : s.Inv) (hpc : s.pc.toNat + 2 ≤ 0x10FE) : s.advance.Inv :=
  h.setPc (by rw [BitVec.toNat_add]; exact (Nat.mod_le _ _).trans hpc)

/-- R103: so it is behind a skip. -/
theorem State.Inv.skipIf (h : s.Inv) (hpc : s.pc.toNat + 2 ≤ 0x10FE) (c : Bool) : (s.skipIf c).Inv := by
  cases c
  · exact h
  · exact h.advance hpc

/-! ### the meanings -/

/-- R92: the advance of an instruction that was fetched ends at 0x1000 at most. -/
theorem toNat_pc_add_two (hpc : s.pc.toNat + 1 < 4096) : (s.pc + 2#16).toNat = s.pc.toNat + 2 := by
  rw [BitVec.toNat_add]
  exact Nat.mod_eq_of_lt (by simp; omega)

/-- R104: the target of Bnnn is the exact sum. -/
theorem toNat_jpV0_target (nnn : Addr12) (b : Byte) : (zextAddr nnn + b.setWidth 16).toNat = nnn.toNat + b.toNat := by
  have hn := nnn.isLt
  have hb := b.isLt
  rw [BitVec.toNat_add, toNat_zextAddr, BitVec.toNat_setWidth_of_le (by decide)]
  omega

/-- R55, R143: a transfer keeps the invariant where its effect does; the address its fault records lies outside the
space. -/
theorem State.Inv.of_withRange {m : Nat} {effect : State → State} (hadv : s.advance.Inv)
    (heff : (effect s.advance).Inv) (h : withRange m effect s = .next t) : t.Inv := by
  obtain ⟨-, heq⟩ | ⟨-, -, heq⟩ := withRange_cases m effect s
  · exact of_eq_next heq h heff
  · exact of_eq_next heq h (hadv.raise (toNat_rangeAddr s.i))

/-- R27, R28, R36, R183: an instruction that was fetched keeps the invariant. -/
theorem State.Inv.of_exec {i : Instr} (hs : s.Inv) (hpc : s.pc.toNat + 1 < 4096) (h : exec i s = .next t) : t.Inv := by
  have hnext : (s.pc + 2#16).toNat ≤ 4096 := by rw [toNat_pc_add_two hpc]; omega
  have hadv : s.advance.Inv := hs.advance (by omega)
  cases i
  case halt => exact of_eq_next rfl h (hs.setStatus trivial)
  case ret =>
    refine of_exec_ret h (fun _ => hadv.raise trivial) fun w rest hstack => ?_
    obtain ⟨hpop, hw⟩ := hadv.pop hstack
    exact hpop.setPc (by omega)
  case jp nnn => exact of_eq_next rfl h (hadv.setPc (by rw [toNat_zextAddr]; omega))
  case call nnn =>
    exact of_exec_call h (fun hroom => (hadv.push hroom hnext).setPc (by rw [toNat_zextAddr]; omega))
      fun _ => hadv.raise trivial
  case jpV0 nnn => exact of_eq_next rfl h (hadv.setPc (by rw [toNat_jpV0_target]; omega))
  case seImm | sneImm | seReg | sneReg | skp | sknp =>
    exact of_eq_next rfl h (hadv.skipIf (Nat.add_le_add_right hnext 2 |>.trans (by decide)) _)
  case ldBVx | storeRegs => exact hadv.of_withRange (hadv.setMem (Memory.wf_writeBytes _ _ _ hadv.mem)) h
  case drw | loadRegs => exact hadv.of_withRange (hadv.of_same rfl rfl rfl rfl rfl) h
  case ldVxK => exact of_eq_next rfl h (hadv.setStatus trivial)
  all_goals exact of_eq_next rfl h (hadv.of_same rfl rfl rfl rfl rfl)

/-- R131: so does one whose random byte is given. -/
theorem State.Inv.of_execGiven {r : Byte} {i : Instr} (hs : s.Inv) (hpc : s.pc.toNat + 1 < 4096)
    (h : execGiven r i s = .next t) : t.Inv := by
  by_cases hrnd : ∃ x nn, i = .rnd x nn
  · obtain ⟨x, nn, rfl⟩ := hrnd
    exact of_eq_next rfl h ((hs.advance (by omega)).of_same rfl rfl rfl rfl rfl)
  · push Not at hrnd
    exact hs.of_exec hpc ((execGiven_other r i s hrnd).symm.trans h)

/-! ### the step -/

/-- R91, R183: a fetch fault records an address outside the space. -/
theorem fault_wf_of_fetch {f : Fault} (h : s.fetch = .error f) : f.wf := by
  obtain ⟨-, hok⟩ | ⟨-, herr⟩ | ⟨hout, herr⟩ := s.fetch_cases
  · cases hok.symm.trans h
  · obtain rfl : _ = f := Except.error.inj (herr.symm.trans h)
    exact le_refl 4096
  · obtain rfl : _ = f := Except.error.inj (herr.symm.trans h)
    exact hout

/-- R90: a step keeps the invariant where the meaning of a fetched instruction does. -/
theorem State.Inv.of_stepBy {run : Instr → State → Result} (hs : s.Inv)
    (hrun : ∀ i, s.pc.toNat + 1 < 4096 → run i s = .next t → t.Inv) (h : stepBy run s = .next t) : t.Inv := by
  obtain ⟨-, hstay⟩ | ⟨x, -, hwait⟩ | ⟨-, ⟨f, hf, hfault⟩ | ⟨op, i, hf, -, hexec⟩ | ⟨op, hf, hd, hunknown⟩⟩ :=
    stepBy_cases run s
  · exact of_eq_next hstay h hs
  · obtain ⟨-, hnone⟩ | ⟨k, -, hsome⟩ := keyWait_cases x s
    · exact of_eq_next (hwait.trans hnone) h hs
    · have hset : (s.setV x (k.setWidth 8)).Inv := hs.of_same rfl rfl rfl rfl rfl
      exact of_eq_next (hwait.trans hsome) h (hset.setStatus trivial)
  · exact of_eq_next hfault h (hs.raise (fault_wf_of_fetch hf))
  · exact hrun i (pc_lt_of_fetch_ok hf) (hexec.symm.trans h)
  · have hpc := pc_lt_of_fetch_ok hf
    exact of_eq_next hunknown h ((hs.advance (by omega)).raise ((wellFormedWord_eq_false_iff op).2 hd))

/-- R90, R196: so does a step that is given its random byte. -/
theorem State.Inv.of_stepGiven {r : Byte} (hs : s.Inv) (h : stepGiven r s = .next t) : t.Inv :=
  hs.of_stepBy (fun _ => hs.of_execGiven) h

/-- Settles O57: for the step with a free byte and the one with a given byte alike. -/
theorem everyStepKeepsTheInvariant : Obligations.EveryStepKeepsTheInvariant := by
  rintro s t hs (h | ⟨r, h⟩)
  · exact hs.of_stepBy (fun _ => hs.of_exec) h
  · exact hs.of_stepGiven h

/-! ### reset and schedules -/

/-- R210: the reset state of every capacity meets the invariant. -/
theorem State.inv_resetWith (d : Nat) : (State.resetWith d).Inv where
  mem := Memory.wf_nil
  depth := Nat.zero_le d
  returns := List.forall_mem_nil _
  pc := (by decide : (0x0200#16).toNat ≤ 0x10FE)
  status := trivial

/-- Settles O56: the default capacity is one of them. -/
theorem invariantHoldsAtReset : Obligations.InvariantHoldsAtReset :=
  ⟨State.inv_resetWith Config.stackDepth, State.inv_resetWith⟩

/-- R67: a load is the byte's write, which changes nothing beyond the space. -/
theorem State.hostLoad_eq (a : Nat) (b : Byte) (s : State) : s.hostLoad a b = s.setMem (Memory.write s.mem a b) := by
  unfold State.hostLoad
  split
  · rfl
  case isFalse h =>
    rw [Memory.write, if_neg h]
    rfl

/-- R197: each operation of the host keeps the invariant. -/
theorem State.Inv.of_transition {op : HostOp} (hs : s.Inv) (h : transition op s = .next t) : t.Inv := by
  cases op with
  | reset => exact of_eq_next rfl h ((State.inv_resetWith s.stackDepth).of_same rfl rfl rfl rfl rfl)
  | load a b =>
    refine of_eq_next rfl h ?_
    rw [State.hostLoad_eq]
    exact hs.setMem (Memory.wf_write _ _ _ hs.mem)
  | setPressed k => exact of_eq_next rfl h (hs.of_same rfl rfl rfl rfl rfl)
  | clearFault =>
    refine of_eq_next rfl h ?_
    unfold State.clearFault
    split
    · exact hs.setStatus trivial
    · exact hs
  | tick => exact of_eq_next rfl h (hs.of_same rfl rfl rfl rfl rfl)
  | step r => exact hs.of_stepGiven h

/-- R9, R131: no meaning given its random byte changes the capacity. -/
theorem stackDepth_of_execGiven {r : Byte} {i : Instr} (h : execGiven r i s = .next t) :
    t.stackDepth = s.stackDepth := by
  by_cases hrnd : ∃ x nn, i = .rnd x nn
  · obtain ⟨x, nn, rfl⟩ := hrnd
    exact field_of_eq_next rfl h rfl
  · push Not at hrnd
    obtain ⟨-, -, -, -, -, -, -, -, hdepth⟩ :=
      writesOnlyItsFields_of_exec ((execGiven_other r i s hrnd).symm.trans h)
    exact hdepth

/-- R9: nor does any step. -/
theorem stackDepth_of_stepGiven {r : Byte} (h : stepGiven r s = .next t) : t.stackDepth = s.stackDepth := by
  obtain ⟨-, hstay⟩ | ⟨x, -, hwait⟩ | ⟨-, ⟨f, -, hfault⟩ | ⟨op, i, -, -, hexec⟩ | ⟨op, -, -, hunknown⟩⟩ :=
    stepGiven_cases r s
  · exact field_of_eq_next hstay h rfl
  · obtain ⟨-, hnone⟩ | ⟨k, -, hsome⟩ := keyWait_cases x s
    · exact field_of_eq_next (hwait.trans hnone) h rfl
    · exact field_of_eq_next (hwait.trans hsome) h rfl
  · exact field_of_eq_next hfault h rfl
  · exact stackDepth_of_execGiven (hexec.symm.trans h)
  · exact field_of_eq_next hunknown h rfl

/-- R9: nor does any operation of the host, a reset included. -/
theorem stackDepth_of_transition {op : HostOp} (h : transition op s = .next t) : t.stackDepth = s.stackDepth := by
  cases op with
  | reset => exact field_of_eq_next rfl h rfl
  | load a b => exact field_of_eq_next rfl h (by rw [State.hostLoad_eq]; rfl)
  | setPressed k => exact field_of_eq_next rfl h rfl
  | clearFault => exact field_of_eq_next rfl h (by rw [State.clearFault_eq]; rfl)
  | tick => exact field_of_eq_next rfl h rfl
  | step r => exact stackDepth_of_stepGiven h

/-- A relation that every operation's transition keeps is kept by the schedule. -/
theorem of_runOps {R : State → State → Prop} {ops : List HostOp} (hrefl : ∀ s, R s s)
    (hstep : ∀ op ∈ ops, ∀ s u t, transition op s = .next u → R u t → R s t) (h : runOps ops s = .next t) : R s t := by
  induction ops generalizing s with
  | nil => exact of_eq_next rfl h (hrefl s)
  | cons op ops ih =>
    obtain ⟨u, hfirst, hrest⟩ := exists_transition_of_runOps_cons h
    obtain ⟨hop, hops⟩ := List.forall_mem_cons.1 hstep
    exact hop s u t hfirst (ih hops hrest)

/-- Settles O58: by induction over the schedule, each operation keeping both. -/
theorem everyScheduleKeepsTheInvariant : Obligations.EveryScheduleKeepsTheInvariant := by
  intro ops s t hs h
  refine of_runOps (R := fun s t => s.Inv → t.Inv ∧ t.stackDepth = s.stackDepth) (fun s hs => ⟨hs, rfl⟩) ?_ h hs
  intro op _ s u t hfirst ih hs
  obtain ⟨ht, hdepth⟩ := ih (hs.of_transition hfirst)
  exact ⟨ht, hdepth.trans (stackDepth_of_transition hfirst)⟩

end Sys2Proof.Machine
end

section
/-! PROOFS. A halted machine under any schedule without a reset (R93, R185, R211). -/

namespace Sys2Proof.Machine

/-- R181, R197: every operation of the host answers a next state. -/
theorem exists_next_transition (op : HostOp) (s : State) : ∃ t, transition op s = .next t := by
  cases op with
  | step r => exact exists_next_stepBy fun i => exists_next_execGiven r i s
  | _ => exact ⟨_, rfl⟩

/-- R181, R191: so does every schedule. -/
theorem exists_next_runOps (ops : List HostOp) (s : State) : ∃ t, runOps ops s = .next t := by
  induction ops generalizing s with
  | nil => exact ⟨s, rfl⟩
  | cons op ops ih =>
    obtain ⟨u, hu⟩ := exists_next_transition op s
    rw [runOps_cons_of_next hu]
    exact ih u

/-- What is left of a machine from halting to reset: everything but the timers, memory and the keyboard latch. -/
def StaysHalted (s t : State) : Prop :=
  s.status = .halted → t.status = .halted ∧ t.pc = s.pc ∧ SameRegsBut [] s t ∧ SameI s t ∧ SameStack s t ∧ SameFb s t ∧
    t.draws = s.draws

theorem StaysHalted.refl (s : State) : StaysHalted s s :=
  fun h => ⟨h, rfl, fun _ _ => rfl, rfl, ⟨rfl, rfl⟩, fun _ _ => rfl, rfl⟩

theorem StaysHalted.trans {s u t : State} (hsu : StaysHalted s u) (hut : StaysHalted u t) : StaysHalted s t := by
  intro h
  obtain ⟨hu, hpc, hregs, hi, ⟨hstack, hdepth⟩, hfb, hdraws⟩ := hsu h
  obtain ⟨ht, hpc', hregs', hi', ⟨hstack', hdepth'⟩, hfb', hdraws'⟩ := hut hu
  exact ⟨ht, hpc'.trans hpc, fun r hr => (hregs' r hr).trans (hregs r hr), hi'.trans hi,
    ⟨hstack'.trans hstack, hdepth'.trans hdepth⟩, fun r c => (hfb' r c).trans (hfb r c), hdraws'.trans hdraws⟩

/-- R185, R197: no operation of the host but reset leaves Halted or moves a halted machine. -/
theorem staysHalted_of_transition {op : HostOp} {s t : State} (hreset : op ≠ .reset)
    (h : transition op s = .next t) : StaysHalted s t := by
  cases op with
  | reset => exact absurd rfl hreset
  | load a b =>
    refine of_eq_next rfl h ?_
    rw [State.hostLoad_eq]
    exact StaysHalted.refl s
  | setPressed k => exact of_eq_next rfl h (StaysHalted.refl s)
  | clearFault =>
    refine of_eq_next rfl h fun hs => ?_
    rw [State.clearFault, hs]
    exact StaysHalted.refl s hs
  | tick => exact of_eq_next rfl h (StaysHalted.refl s)
  | step r =>
    intro hs
    obtain rfl : s = t := Host.Outcome.next.inj ((stepBy_of_stopped (.inl hs)).symm.trans h)
    exact StaysHalted.refl s hs

/-- Settles O49: by induction over the schedule, no operation of which is a reset. -/
theorem haltedUntilReset : Obligations.HaltedUntilReset := by
  intro ops s hreset hs
  obtain ⟨t, h⟩ := exists_next_runOps ops s
  have hstep : ∀ op ∈ ops, ∀ s u t, transition op s = .next u → StaysHalted u t → StaysHalted s t := by
    intro op hop s u t hfirst hrest
    exact (staysHalted_of_transition (fun heq => hreset (heq ▸ hop)) hfirst).trans hrest
  exact ⟨t, h, of_runOps StaysHalted.refl hstep h hs⟩

end Sys2Proof.Machine
end

section
/-! PROOFS. A canonical memory is the list of its cells that differ from reset (R36), so it is determined by what it
reads. -/

namespace Sys2Proof.Machine

/-- A byte that differs from its reset contents is listed. -/
theorem Memory.mem_of_read_ne {m : Memory} {a : Nat} (h : Memory.read m a ≠ Config.resetByte) :
    (a, Memory.read m a) ∈ m := by
  induction m with
  | nil => exact absurd rfl h
  | cons c m ih =>
    obtain ⟨k, b⟩ := c
    rw [Memory.read_cons] at h ⊢
    by_cases hk : k = a
    · simp [hk]
    · rw [if_neg hk] at h ⊢
      exact List.mem_cons_of_mem _ (ih h)

/-- With rising addresses, a listed byte is the one read. -/
theorem Memory.read_of_mem {m : Memory} (hm : m.Pairwise fun c d => c.1 < d.1) {c : Host.Cell} (hc : c ∈ m) :
    Memory.read m c.1 = c.2 := by
  induction m with
  | nil => cases hc
  | cons d m ih =>
    obtain ⟨k, b⟩ := d
    obtain ⟨hlt, hrest⟩ := List.pairwise_cons.1 hm
    rw [Memory.read_cons]
    obtain rfl | hc := List.mem_cons.1 hc
    · exact if_pos rfl
    · rw [if_neg (hlt c hc).ne, ih hrest hc]

/-- The cells of a canonical memory are the bytes it reads that differ from their reset contents. -/
theorem Memory.mem_iff_read {m : Memory} (hm : Memory.wf m) (c : Host.Cell) :
    c ∈ m ↔ Memory.read m c.1 = c.2 ∧ c.2 ≠ Config.resetByte := by
  constructor
  · exact fun hc => ⟨Memory.read_of_mem hm.1 hc, (hm.2 c hc).2⟩
  · rintro ⟨hread, hne⟩
    rw [← hread] at hne
    have hmem := Memory.mem_of_read_ne hne
    rwa [hread] at hmem

/-- Settles O59: the two memories list the same cells in the same order. -/
theorem canonicalMemoryIsUnique : Obligations.CanonicalMemoryIsUnique := by
  intro m m' hm hm' hread
  have hirrefl : Std.Irrefl fun c d : Host.Cell => c.1 < d.1 := ⟨fun c => lt_irrefl c.1⟩
  have hantisymm : Std.Antisymm fun c d : Host.Cell => c.1 < d.1 := ⟨fun c d h h' => absurd h' h.asymm⟩
  exact hm.1.eq_of_mem_iff hm'.1 fun c => by rw [Memory.mem_iff_read hm, Memory.mem_iff_read hm', hread]

end Sys2Proof.Machine
end

section
/-! PROOFS. Control transfer (R100 to R109): jumps, calls, returns and skips, each with its target and its frame. -/

namespace Sys2Proof.Machine

variable {s : State}

/-- R95: an instruction whose whole effect is on pc changes nothing else. -/
theorem onlyRegs_setPc (s : State) (w : Word) : OnlyRegs [] s (s.setPc w) where
  regs _ _ := rfl
  i := rfl
  stack := ⟨rfl, rfl⟩
  timers := ⟨rfl, rfl⟩
  mem _ := rfl
  fb _ _ := rfl
  latches := ⟨rfl, rfl, rfl⟩

/-- R92: the advance goes to the following instruction. -/
theorem nextPc_advance (s : State) : NextPc s s.advance :=
  BitVec.toNat_add s.pc 2#16

/-- Settles O14: both write pc alone, the one the address, the other its exact sum with V0. -/
theorem jumpsSetPc : Obligations.JumpsSetPc := by
  intro s nnn
  exact ⟨⟨_, exec_jp nnn s, toNat_zextAddr nnn, onlyRegs_setPc s _⟩,
    ⟨_, exec_jpV0 nnn s, toNat_jpV0_target nnn _, onlyRegs_setPc s _⟩⟩

/-! ### calls and returns -/

/-- R102: a call with room on the stack. -/
theorem exec_call_of_lt (nnn : Addr12) (h : s.stack.length < s.stackDepth) :
    exec (.call nnn) s = .next ((s.advance.setStack ((s.pc + 2#16) :: s.stack)).setPc (zextAddr nnn)) := by
  obtain ⟨-, hcall⟩ | ⟨hle, -⟩ := exec_call_cases nnn s
  · exact hcall
  · exact absurd h hle.not_gt

/-- R29, R102: a call on a stack at its capacity. -/
theorem exec_call_of_le (nnn : Addr12) (h : s.stackDepth ≤ s.stack.length) :
    exec (.call nnn) s = .next (afterFault (.stackOverflow s.pc) s) := by
  obtain ⟨hlt, -⟩ | ⟨-, hcall⟩ := exec_call_cases nnn s
  · exact absurd hlt h.not_gt
  · exact hcall

/-- R100: a return with an entry on the stack. -/
theorem exec_ret_of_cons {w : Word} {rest : List Word} (h : s.stack = w :: rest) :
    exec .ret s = .next ((s.advance.setStack rest).setPc w) := by
  obtain ⟨hnil, -⟩ | ⟨w', rest', hcons, hret⟩ := exec_ret_cases s
  · cases hnil.symm.trans h
  · obtain ⟨rfl, rfl⟩ : w' = w ∧ rest' = rest := List.cons_eq_cons.1 (hcons.symm.trans h)
    exact hret

/-- R30, R100: a return on an empty stack. -/
theorem exec_ret_of_nil (h : s.stack = []) : exec .ret s = .next (afterFault (.stackUnderflow s.pc) s) := by
  obtain ⟨-, hret⟩ | ⟨w, rest, hcons, -⟩ := exec_ret_cases s
  · exact hret
  · cases h.symm.trans hcons

/-- Settles O15: with room, the call is the push of the advanced pc and the write of pc. -/
theorem callPushesReturnAddress : Obligations.CallPushesReturnAddress := by
  intro s nnn h
  exact ⟨_, exec_call_of_lt nnn h, rfl, toNat_zextAddr nnn, rfl, fun _ _ => rfl, rfl, ⟨rfl, rfl⟩, fun _ => rfl,
    fun _ _ => rfl, rfl, rfl, rfl⟩

/-- Settles O16: a call compares the stack's length with the machine's own capacity. -/
theorem callAtEveryCapacity : Obligations.CallAtEveryCapacity := by
  rintro depth s nnn rfl
  exact ⟨exec_call_of_le nnn, fun h => ⟨_, exec_call_of_lt nnn h, rfl, toNat_zextAddr nnn, rfl, rfl⟩⟩

/-- Settles O17: with an entry on the stack, the return is the pop and the write of pc. -/
theorem retPopsReturnAddress : Obligations.RetPopsReturnAddress := by
  intro s w rest h
  exact ⟨_, exec_ret_of_cons h, rfl, rfl, rfl, fun _ _ => rfl, rfl, ⟨rfl, rfl⟩, fun _ => rfl, fun _ _ => rfl, rfl, rfl, rfl⟩

/-- Settles O18: the pop of an empty stack. -/
theorem retUnderflowLatches : Obligations.RetUnderflowLatches := by
  intro s h
  exact exec_ret_of_nil h

/-- Instructions run after a list of others, from the state these leave. -/
theorem execAll_append {is js : List Instr} {u : State} (h : execAll is s = .next u) :
    execAll (is ++ js) s = execAll js u := by
  induction is generalizing s with
  | nil =>
    obtain rfl : s = u := Host.Outcome.next.inj h
    rfl
  | cons i is ih =>
    rw [List.cons_append, execAll]
    rw [execAll] at h
    cases hi : exec i s with
    | next v =>
      rw [hi] at h
      exact ih h
    | fault f => rw [hi] at h; cases h
    | refused r => rw [hi] at h; cases h

/-- R100, R102: nested calls and their returns end with pc behind the first call, and change nothing else. -/
theorem execAll_calls_rets (targets : List Addr12) (s : State) (h : s.stack.length + targets.length ≤ s.stackDepth) :
    execAll (targets.map .call ++ List.replicate targets.length .ret) s =
      .next (s.setPc (if targets = [] then s.pc else s.pc + 2#16)) := by
  induction targets generalizing s with
  | nil => rfl
  | cons nnn targets ih =>
    have hlen : (nnn :: targets).length = targets.length + 1 := rfl
    have hcall := exec_call_of_lt (s := s) nnn (by omega)
    have hinner := ih ((s.advance.setStack ((s.pc + 2#16) :: s.stack)).setPc (zextAddr nnn))
      (by simp only [State.setPc_stack, State.setStack_stack, List.length_cons, State.setPc_stackDepth,
            State.setStack_stackDepth, State.advance_stackDepth]; omega)
    rw [hlen, List.replicate_succ', ← List.append_assoc, List.map_cons, List.cons_append, List.cons_append, execAll,
      hcall, if_neg (List.cons_ne_nil _ _)]
    dsimp only
    rw [execAll_append hinner, execAll, exec_ret_of_cons rfl]
    rfl

/-- Settles O19: the nested calls and returns leave the state but for pc. -/
theorem nestedCallsReturn : Obligations.NestedCallsReturn := by
  intro s targets hne h
  exact ⟨_, execAll_calls_rets targets s h, if_neg hne, onlyRegs_setPc s _⟩

/-! ### skips -/

/-- R103: pc behind an instruction that skips where a condition holds. -/
theorem skipPc_advance_skipIf (s : State) {c : Bool} {taken : Prop} (hc : c = true ↔ taken) :
    SkipPc taken s (s.advance.skipIf c) := by
  have h2 : (s.pc + 2#16).toNat = (s.pc.toNat + 2) % 65536 := BitVec.toNat_add s.pc 2#16
  have h4 : (s.pc + 2#16 + 2#16).toNat = (s.pc.toNat + 4) % 65536 := by
    rw [BitVec.toNat_add, h2]
    simp [Nat.add_assoc]
  rw [State.skipIf_eq]
  cases c
  · exact ⟨fun h => absurd (hc.2 h) Bool.false_ne_true, fun _ => h2⟩
  · exact ⟨fun _ => h4, fun h => absurd (hc.1 rfl) h⟩

/-- The whole effect of a skip instruction. -/
theorem exists_next_of_exec_eq_skipIf {i : Instr} {c : Bool} {taken : Prop}
    (h : exec i s = .next (s.advance.skipIf c)) (hc : c = true ↔ taken) :
    ∃ t, exec i s = .next t ∧ SkipPc taken s t ∧ OnlyRegs [] s t := by
  refine ⟨_, h, skipPc_advance_skipIf s hc, ?_⟩
  rw [State.skipIf_eq]
  exact onlyRegs_setPc s _

/-- Settles O20: the four comparisons decide the skip. -/
theorem registerSkipsFollowTheirCondition : Obligations.RegisterSkipsFollowTheirCondition := by
  intro s x y nn
  exact ⟨exists_next_of_exec_eq_skipIf (exec_seImm x nn s) beq_iff_eq,
    exists_next_of_exec_eq_skipIf (exec_sneImm x nn s) bne_iff_ne,
    exists_next_of_exec_eq_skipIf (exec_seReg x y s) beq_iff_eq,
    exists_next_of_exec_eq_skipIf (exec_sneReg x y s) bne_iff_ne⟩

/-- R177: the key test compares the whole byte with the latched key. -/
theorem State.isPressed_iff (s : State) (b : Byte) : s.isPressed b = true ↔ ∃ k, s.key = some k ∧ b.toNat = k.toNat := by
  unfold State.isPressed
  cases s.key with
  | none => simp
  | some q =>
    rw [beq_iff_eq, ← BitVec.toNat_inj, BitVec.toNat_setWidth_of_le (by decide)]
    simp [eq_comm]

/-- Settles O21: the key test decides the skip. -/
theorem keySkipsCompareTheWholeByte : Obligations.KeySkipsCompareTheWholeByte := by
  intro s x
  have hkey := s.isPressed_iff (s.getV x)
  refine ⟨exists_next_of_exec_eq_skipIf (exec_skp x s) hkey, exists_next_of_exec_eq_skipIf (exec_sknp x s) ?_⟩
  rw [Bool.not_eq_true', Bool.eq_false_iff, ne_eq, hkey]

end Sys2Proof.Machine
end

section
/-! PROOFS. The ALU's results and flags (R126 to R133): the values of the flag bytes, and the one effect the five
instructions with a flag share. -/

namespace Sys2Proof.Machine

variable {s : State}

/-- R133: a result and its flag behind the pc advance change no register but Vx and VF, and nothing else but pc. -/
theorem onlyRegs_advance_setResultAndFlag (s : State) (x : Reg) (b f : Byte) :
    OnlyRegs [x, Reg.flag] s (s.advance.setResultAndFlag x b f) where
  regs r hr := by
    obtain ⟨hx, hflag⟩ : r ≠ x ∧ r ≠ Reg.flag := by simpa using hr
    rw [State.getV_setResultAndFlag, if_neg hflag, if_neg hx, State.advance_getV]
  i := rfl
  stack := ⟨rfl, rfl⟩
  timers := ⟨rfl, rfl⟩
  mem _ := rfl
  fb _ _ := rfl
  latches := ⟨rfl, rfl, rfl⟩

/-- R133: the whole effect of an instruction whose meaning is the pc advance and a result of value n with a flag of value
m. -/
theorem exists_next_of_exec_eq_setResultAndFlag {i : Instr} {x : Reg} {b f : Byte} {n m : Nat}
    (h : exec i s = .next (s.advance.setResultAndFlag x b f)) (hb : b.toNat = n) (hf : f.toNat = m) :
    ∃ t, exec i s = .next t ∧ (x ≠ Reg.flag → (t.getV x).toNat = n) ∧ (t.getV Reg.flag).toNat = m ∧ NextPc s t ∧
      OnlyRegs [x, Reg.flag] s t := by
  refine ⟨_, h, fun hx => ?_, ?_, nextPc_advance s, onlyRegs_advance_setResultAndFlag s x b f⟩
  · rw [State.getV_setResultAndFlag, if_neg hx, if_pos rfl, hb]
  · rw [State.getV_setResultAndFlag, if_pos rfl, hf]

/-- R22: the value of a flag's byte. -/
theorem toNat_flagByte (b : Bool) : (flagByte b).toNat = if b then 1 else 0 := by
  cases b <;> rfl

/-- R22: the value of a flag that is decided. -/
theorem toNat_flagByte_decide (p : Prop) [Decidable p] : (flagByte (decide p)).toNat = if p then 1 else 0 := by
  rw [toNat_flagByte]
  simp only [decide_eq_true_eq]

/-- Settles O24: the byte sum is taken modulo 256, and the carry compares the exact sum with 255. -/
theorem addRegistersSetsCarry : Obligations.AddRegistersSetsCarry := by
  intro s x y
  exact exists_next_of_exec_eq_setResultAndFlag (exec_addReg x y s) (BitVec.toNat_ofNat _ 8) (toNat_flagByte_decide _)

/-- R132: the difference of two bytes modulo 256. -/
theorem toNat_subByte (a b : Byte) : (subByte a b).toNat = (256 + a.toNat - b.toNat) % 256 := by
  have ha := a.isLt
  have hb := b.isLt
  rw [subByte, BitVec.toNat_ofInt]
  omega

/-- Settles O25: the two subtractions are one with their operands exchanged. -/
theorem subtractionsSetNoBorrow : Obligations.SubtractionsSetNoBorrow := by
  intro s x y
  exact ⟨exists_next_of_exec_eq_setResultAndFlag (exec_subReg x y s) (toNat_subByte _ _) (toNat_flagByte_decide _),
    exists_next_of_exec_eq_setResultAndFlag (exec_subnReg x y s) (toNat_subByte _ _) (toNat_flagByte_decide _)⟩

/-- R128: a right shift by one halves the byte. -/
theorem toNat_ushiftRight_one (a : Byte) : (a >>> 1).toNat = a.toNat / 2 := by
  rw [BitVec.toNat_ushiftRight, Nat.shiftRight_one]

/-- R130: a left shift by one doubles the byte modulo 256. -/
theorem toNat_shiftLeft_one (a : Byte) : (a <<< 1).toNat = a.toNat * 2 % 256 := by
  rw [BitVec.toNat_shiftLeft, Nat.shiftLeft_eq, pow_one]

/-- R128: the bit shifted out to the right is the remainder. -/
theorem toNat_shiftedOutRight (a : Byte) : (shiftedOutRight a).toNat = a.toNat % 2 := by
  rw [shiftedOutRight, BitVec.toNat_and]
  exact Nat.and_one_is_mod a.toNat

/-- R130: the bit shifted out to the left is bit 7. -/
theorem toNat_shiftedOutLeft (a : Byte) : (shiftedOutLeft a).toNat = a.toNat / 128 := by
  have ha : a.toNat / 128 < 2 := by have := a.isLt; omega
  calc (shiftedOutLeft a).toNat = (a >>> 7).toNat % 2 := toNat_shiftedOutRight (a >>> 7)
    _ = a.toNat / 128 % 2 := by rw [BitVec.toNat_ushiftRight, Nat.shiftRight_eq_div_pow]
    _ = a.toNat / 128 := Nat.mod_eq_of_lt ha

/-- Settles O26: neither shift reads Vy. -/
theorem shiftsIgnoreVy : Obligations.ShiftsIgnoreVy := by
  intro s x y
  exact ⟨exists_next_of_exec_eq_setResultAndFlag (exec_shr x y s) (toNat_ushiftRight_one _) (toNat_shiftedOutRight _),
    exists_next_of_exec_eq_setResultAndFlag (exec_shl x y s) (toNat_shiftLeft_one _) (toNat_shiftedOutLeft _)⟩

/-- Settles O30: the word written to I is the sum modulo 2^16, or five times a byte, which is below 2^16. -/
theorem indexArithmetic : Obligations.IndexArithmetic := by
  intro s x
  have hglyph : (BitVec.ofNat 16 (Config.fontBase + (s.getV x).toNat * Config.glyphBytes)).toNat =
      (s.getV x).toNat * 5 := by
    have hx := (s.getV x).isLt
    simp only [Config.fontBase, Config.glyphBytes, BitVec.toNat_ofNat]
    omega
  exact ⟨exists_next_of_exec_eq_setI (exec_addIVx x s) (BitVec.toNat_ofNat _ 16),
    exists_next_of_exec_eq_setI (exec_ldFVx x s) hglyph⟩

/-- Settles O43: the issue of Fx0A is the pc advance and the write of status. -/
theorem keyWaitSuspends : Obligations.KeyWaitSuspends := by
  intro s x
  exact ⟨_, exec_ldVxK x s, rfl, nextPc_advance s, fun _ _ => rfl, rfl, ⟨rfl, rfl⟩, ⟨rfl, rfl⟩, fun _ => rfl,
    fun _ _ => rfl, rfl, rfl⟩

end Sys2Proof.Machine
end

section
/-! PROOFS. The random byte (R131, R196): what Cxnn makes of it, and that a step's byte reaches no other instruction. -/

namespace Sys2Proof.Machine

variable {s t : State}

/-- R131: Cxnn, given its byte, changes Vx, pc and the number of bytes drawn. -/
theorem frame_of_rndWith {r nn : Byte} {x : Reg} (h : rndWith r x nn s = .next t) :
    t.getV x = r &&& nn ∧ NextPc s t ∧ t.draws = s.draws + 1 ∧ SameRegsBut [x] s t ∧ SameI s t ∧ SameStack s t ∧
      SameTimers s t ∧ SameMem s t ∧ SameFb s t ∧ t.key = s.key ∧ t.status = s.status := by
  obtain rfl : s.advance.countDraw.setV x (r &&& nn) = t := Host.Outcome.next.inj h
  exact ⟨State.getV_setV_same _ x _, nextPc_advance s, rfl,
    fun _ hr => State.getV_setV_other _ _ (List.ne_of_not_mem_cons hr).symm, rfl, ⟨rfl, rfl⟩, ⟨rfl, rfl⟩, fun _ => rfl,
    fun _ _ => rfl, rfl, rfl⟩

/-- R90: where no Cxnn is fetched, the byte a step is given changes nothing. -/
theorem stepGiven_eq_step {r : Byte} (h : ∀ x nn, ¬ Fetched (.rnd x nn) s) : stepGiven r s = step s := by
  refine stepBy_congr fun i hi => execGiven_other r i s fun x nn hrnd => ?_
  exact h x nn (hrnd ▸ hi)

/-- R196: a step without an input is the one given the byte the source has ready. -/
theorem step_eq_stepGiven (s : State) : step s = stepGiven s.nextRandom s :=
  stepBy_congr fun i _ => (execGiven_nextRandom i s).symm

/-- Settles O27: both forms of Cxnn are `rndWith` at a byte. -/
theorem randomByteIsMasked : Obligations.RandomByteIsMasked := by
  intro s x nn
  refine ⟨fun r => ?_, ?_, fun r => stepBy_of_fetched, fun r => stepGiven_eq_step, ⟨_, step_eq_stepGiven s⟩⟩
  · obtain ⟨hx, hframe⟩ := frame_of_rndWith (s := s) (r := r) (x := x) (nn := nn) rfl
    exact ⟨_, rfl, fun k => by rw [hx, BitVec.getLsbD_and], hframe⟩
  · obtain ⟨hx, hframe⟩ := frame_of_rndWith (exec_rnd x nn s)
    exact ⟨_, exec_rnd x nn s, ⟨s.nextRandom, rfl⟩,
      fun k hk => by rw [hx, BitVec.getLsbD_and, hk, Bool.and_false], hframe⟩

end Sys2Proof.Machine
end

section
/-! PROOFS. The registers a step may write (R21, R22, R173). -/

namespace Sys2Proof.Machine

variable {s t : State}

/-- R21, R22: between the two states only registers differ that the instruction names as its destination or writes as
its flag. -/
def ChangesOnlyNamedRegs (i : Instr) (s t : State) : Prop :=
  ∀ r : Reg, t.getV r ≠ s.getV r → namesDest r i = true ∨ (r = Reg.flag ∧ writesFlag i = true)

theorem changesOnlyNamedRegs_of_v_eq {i : Instr} (h : t.v = s.v) : ChangesOnlyNamedRegs i s t := by
  intro r hr
  rw [State.getV, State.getV, h] at hr
  exact absurd rfl hr

/-- A register that a write to Vx has changed is Vx. -/
theorem eq_of_getV_setV_ne {x r : Reg} {b : Byte} (h : (s.setV x b).getV r ≠ s.getV r) : r = x := by
  by_contra hne
  exact h (s.getV_setV_other b (Ne.symm hne))

/-- R133: a register that a result and its flag have changed is Vx or VF. -/
theorem eq_or_eq_of_getV_setResultAndFlag_ne {x r : Reg} {b f : Byte}
    (h : (s.setResultAndFlag x b f).getV r ≠ s.getV r) : r = x ∨ r = Reg.flag := by
  by_contra hne
  push Not at hne
  exact h (by rw [State.getV_setResultAndFlag, if_neg hne.2, if_neg hne.1])

/-- R146: a register that a block load has changed is one of V0 to Vx. -/
theorem le_of_getV_loadBlock_ne {x r : Reg} (h : (State.loadBlock x s).getV r ≠ s.getV r) : r.toNat ≤ x.toNat := by
  by_contra hgt
  exact h (by rw [State.getV_loadBlock, if_neg hgt])

/-- R21, R22: an instruction changes only the registers it names. -/
theorem changesOnlyNamedRegs_of_exec {i : Instr} (h : exec i s = .next t) : ChangesOnlyNamedRegs i s t := by
  have hsame {u : State} (hu : u.v = s.v) : ChangesOnlyNamedRegs i s u := changesOnlyNamedRegs_of_v_eq hu
  cases i
  case ret => exact of_exec_ret h (fun _ => hsame rfl) fun _ _ _ => hsame rfl
  case call => exact of_exec_call h (fun _ => hsame rfl) fun _ => hsame rfl
  case seImm | sneImm | seReg | sneReg | skp | sknp =>
    exact of_eq_next rfl h (hsame (by rw [State.skipIf_eq]; rfl))
  case ldImm | addImm | ldReg | orReg | andReg | xorReg | rnd | ldVxDt =>
    exact of_eq_next rfl h fun _ hr => .inl (beq_iff_eq.2 (eq_of_getV_setV_ne hr))
  case addReg | subReg | shr | subnReg | shl =>
    exact of_eq_next rfl h fun _ hr =>
      (eq_or_eq_of_getV_setResultAndFlag_ne hr).imp beq_iff_eq.2 fun hflag => ⟨hflag, rfl⟩
  case drw => exact of_withRange h (fun _ hr => .inr ⟨eq_of_getV_setV_ne hr, rfl⟩) fun _ _ => hsame rfl
  case ldBVx | storeRegs => exact of_withRange h (hsame rfl) fun _ _ => hsame rfl
  case loadRegs =>
    exact of_withRange h (fun _ hr => .inl (decide_eq_true (le_of_getV_loadBlock_ne hr))) fun _ _ => hsame rfl
  all_goals exact of_eq_next rfl h (hsame rfl)

/-- Settles O28: of the steps that fetch no instruction only a completed key wait writes a register. -/
theorem onlyNamedRegistersChange : Obligations.OnlyNamedRegistersChange := by
  intro s t r h hr
  obtain ⟨-, hstay⟩ | ⟨x, hs, hwait⟩ | ⟨hs, ⟨f, -, hfault⟩ | ⟨op, i, hf, hd, hexec⟩ | ⟨op, -, -, hunknown⟩⟩ :=
    step_cases s
  · exact absurd (field_of_eq_next (field := (·.getV r)) hstay h rfl) hr
  · obtain ⟨-, hnone⟩ | ⟨k, -, hsome⟩ := keyWait_cases x s
    · exact absurd (field_of_eq_next (field := (·.getV r)) (hwait.trans hnone) h rfl) hr
    · obtain rfl := Host.Outcome.next.inj ((hwait.trans hsome).symm.trans h)
      obtain rfl := eq_of_getV_setV_ne hr
      exact .inl hs
  · exact absurd (field_of_eq_next (field := (·.getV r)) hfault h rfl) hr
  · exact .inr ⟨i, ⟨hs, op, hf, hd⟩, changesOnlyNamedRegs_of_exec (hexec.symm.trans h) r hr⟩
  · exact absurd (field_of_eq_next (field := (·.getV r)) hunknown h rfl) hr

end Sys2Proof.Machine
end

section
/-! PROOFS. The transfers through I (R143 to R146): in range each is its effect behind the pc advance, out of range the fault
at the lowest bad address. -/

namespace Sys2Proof.Machine

variable {s t : State}

/-- R143, R183: the address a range check reports is the lowest one outside the space. -/
theorem rangeAddr_eq_lowestOutOfRange (base : Word) :
    BitVec.ofNat 16 (max base.toNat 4096) = lowestOutOfRange base := by
  rw [lowestOutOfRange, Config.memSize_eq]
  split
  case isTrue h => rw [max_eq_right (le_of_lt h)]
  case isFalse h => rw [max_eq_left (not_lt.1 h), BitVec.ofNat_toNat, BitVec.setWidth_eq]

/-- R55, R161: a transfer of bytes that are all in range, or of none. -/
theorem withRange_of_inRange {m : Nat} (effect : State → State) (h : m = 0 ∨ s.i.toNat + m ≤ 4096) :
    withRange m effect s = .next (effect s.advance) := by
  obtain ⟨-, heq⟩ | ⟨hpos, hgt, -⟩ := withRange_cases m effect s
  · exact heq
  · omega

/-- R143, R184: a transfer with a byte out of range. -/
theorem withRange_of_outOfRange {m : Nat} (effect : State → State) (hpos : 0 < m) (h : 4096 < s.i.toNat + m) :
    withRange m effect s = .next (afterFault (.outOfBoundsAccess s.pc (lowestOutOfRange s.i)) s) := by
  obtain ⟨hle, -⟩ | ⟨-, -, heq⟩ := withRange_cases m effect s
  · omega
  · rw [heq, rangeAddr_eq_lowestOutOfRange, afterFault_eq]

/-- Settles O34: each of the four forms checks the range of the bytes it touches first. -/
theorem transfersOutOfRangeFault : Obligations.TransfersOutOfRangeFault := by
  intro s x y n
  exact ⟨fun h => withRange_of_outOfRange _ (by omega) (by omega), fun h => withRange_of_outOfRange _ (by omega) (by omega),
    fun h => withRange_of_outOfRange _ (by omega) (by omega), fun hn h => withRange_of_outOfRange _ hn (by omega)⟩

/-! ### stores -/

/-- R143: the k-th byte stored from I. -/
theorem State.read_storeAtI (s : State) {bytes : List Byte} {k : Nat} (hk : k < bytes.length)
    (hr : s.i.toNat + bytes.length ≤ 4096) : Memory.read (s.storeAtI bytes).mem (s.effAddr k) = bytes[k] :=
  Memory.read_writeBytes_inside s.mem s.i.toNat bytes k hk hr

/-- R53: bytes stored from I leave every other byte. -/
theorem State.sameMemOutside_storeAtI (s : State) (bytes : List Byte) :
    SameMemOutside (s.effAddr 0) bytes.length s (s.storeAtI bytes) :=
  Memory.read_writeBytes_outside s.mem (s.effAddr 0) bytes

/-- The whole effect of an instruction that stores m bytes from I, with all of them in range. -/
theorem exists_next_of_exec_eq_storeAtI {i : Instr} {m : Nat} {bytes : State → List Byte}
    (h : exec i s = withRange m (fun u => u.storeAtI (bytes u)) s) (hlen : (bytes s.advance).length = m)
    (hr : s.i.toNat + m ≤ 4096) :
    ∃ t, exec i s = .next t ∧
      (∀ (k : Nat) (hk : k < (bytes s.advance).length), Memory.read t.mem (s.effAddr k) = (bytes s.advance)[k]) ∧
      SameMemOutside (s.effAddr 0) m s t ∧ NextPc s t ∧ SameRegsBut [] s t ∧ SameI s t ∧ SameStack s t ∧
      SameTimers s t ∧ SameFb s t ∧ SameLatches s t := by
  subst hlen
  exact ⟨_, h.trans (withRange_of_inRange _ (.inr hr)), fun k hk => s.advance.read_storeAtI hk hr,
    s.advance.sameMemOutside_storeAtI _, nextPc_advance s, fun _ _ => rfl, rfl, ⟨rfl, rfl⟩, ⟨rfl, rfl⟩, fun _ _ => rfl,
    rfl, rfl, rfl⟩

/-- Settles O31: the three bytes stored are the decimal digits of a byte. -/
theorem bcdDigitsAreStored : Obligations.BcdDigitsAreStored := by
  intro s x hr
  obtain ⟨t, hexec, hread, hframe⟩ := exists_next_of_exec_eq_storeAtI (exec_ldBVx x s) rfl (by omega)
  have hx := (s.getV x).isLt
  have digit {k n : Nat} {b : Byte} (hb : Memory.read t.mem (s.effAddr k) = b) (hn : b = BitVec.ofNat 8 n)
      (hlt : n < 256) : (Memory.read t.mem (s.effAddr k)).toNat = n := by
    rw [hb, hn, BitVec.toNat_ofNat, Nat.mod_eq_of_lt hlt]
  refine ⟨t, hexec, ⟨(s.getV x).toNat / 100, (s.getV x).toNat / 10 % 10, (s.getV x).toNat % 10, by omega, by omega,
    by omega, by omega, ?_, ?_, ?_⟩, hframe⟩
  · exact digit (hread 0 (by decide : 0 < 3)) rfl (by omega)
  · exact digit (hread 1 (by decide : 1 < 3)) rfl (by omega)
  · exact digit (hread 2 (by decide : 2 < 3)) rfl (by omega)

/-- R145: Fx55 in range stores V0 to Vx from I, and changes nothing else but pc. -/
theorem exists_next_exec_storeRegs {x : Reg} (hr : s.i.toNat + x.toNat < 4096) :
    ∃ t, exec (.storeRegs x) s = .next t ∧
      (∀ k : Reg, k.toNat ≤ x.toNat → Memory.read t.mem (s.effAddr k.toNat) = s.getV k) ∧
      SameMemOutside (s.effAddr 0) (x.toNat + 1) s t ∧ NextPc s t ∧ SameRegsBut [] s t ∧ SameI s t ∧ SameStack s t ∧
      SameTimers s t ∧ SameFb s t ∧ SameLatches s t := by
  have hlen := s.advance.length_regBlock x
  obtain ⟨t, hexec, hread, hframe⟩ := exists_next_of_exec_eq_storeAtI (exec_storeRegs x s) hlen (by omega)
  refine ⟨t, hexec, fun k hk => ?_, hframe⟩
  have hklt : k.toNat < (s.advance.regBlock x).length := by omega
  exact (hread k.toNat hklt).trans (s.advance.getElem_regBlock x k hklt)

/-- Settles O32: the k-th byte stored is Vk. -/
theorem registerBlockIsStored : Obligations.RegisterBlockIsStored := by
  intro s x hr
  exact exists_next_exec_storeRegs hr

/-- Settles O33: the k-th byte loaded goes to Vk. -/
theorem registerBlockIsLoaded : Obligations.RegisterBlockIsLoaded := by
  intro s x hr
  have hexec : exec (.loadRegs x) s = .next (State.loadBlock x s.advance) := withRange_of_inRange _ (.inr (by omega))
  refine ⟨_, hexec, fun k hk => ?_, fun k hk => ?_, nextPc_advance s, rfl, ⟨rfl, rfl⟩, ⟨rfl, rfl⟩, fun _ => rfl,
    fun _ _ => rfl, rfl, rfl, rfl⟩
  · rw [State.getV_loadBlock, if_pos hk]
    rfl
  · rw [State.getV_loadBlock, if_neg (not_le.2 hk), State.advance_getV]

/-- Settles O35: the load reads the bytes the store wrote. -/
theorem storedBlockLoadsBack : Obligations.StoredBlockLoadsBack := by
  intro s t u w x hr hstore hmem hi hload k hk
  obtain ⟨t', hstore', hstored, -⟩ := exists_next_exec_storeRegs hr
  obtain rfl : t' = t := Host.Outcome.next.inj (hstore'.symm.trans hstore)
  obtain ⟨w', hload', hloaded, -⟩ := registerBlockIsLoaded u x (hi ▸ hr)
  obtain rfl : w' = w := Host.Outcome.next.inj (hload'.symm.trans hload)
  calc w'.getV k = Memory.read u.mem (u.effAddr k.toNat) := hloaded k hk
    _ = Memory.read t'.mem (s.effAddr k.toNat) := by rw [hmem, State.effAddr, State.effAddr, hi]
    _ = s.getV k := hstored k hk

/-- R56: the value of a word from its two bytes. -/
theorem toNat_wordOfBytes (b0 b1 : Byte) : (wordOfBytes b0 b1).toNat = b0.toNat * 256 + b1.toNat := by
  rw [wordOfBytes, BitVec.toNat_append, Nat.shiftLeft_eq, Nat.mul_comm]
  exact (Nat.two_pow_add_eq_or_of_lt b1.isLt b0.toNat).symm

/-- Settles O36: the store leaves pc at the address it stored V0 to. -/
theorem storeIsSeenByTheNextFetch : Obligations.StoreIsSeenByTheNextFetch := by
  intro s t x hx hpc hi hr hstore
  obtain ⟨t', hstore', hstored, -, hnext, -⟩ := exists_next_exec_storeRegs hr
  obtain rfl : t' = t := Host.Outcome.next.inj (hstore'.symm.trans hstore)
  have hpc' : t'.pc.toNat = s.pc.toNat + 2 := by rw [hnext]; omega
  have h0 : Memory.read t'.mem t'.pc.toNat = s.getV 0x0#4 := by
    rw [hpc', ← hi]
    exact hstored 0x0#4 (Nat.zero_le _)
  have h1 : Memory.read t'.mem (t'.pc.toNat + 1) = s.getV 0x1#4 := by
    rw [hpc', ← hi]
    exact hstored 0x1#4 hx
  refine ⟨_, State.fetch_of_pc_lt (by omega), ?_⟩
  rw [h0, h1, toNat_wordOfBytes]

end Sys2Proof.Machine
end

section
/-! PROOFS. Program load (R212): byte by byte from 0x200, what falls beyond the space refused. -/

namespace Sys2Proof.Machine

/-- R67: a write beyond the space leaves memory. -/
theorem Memory.write_of_le (m : Memory) {a : Nat} (b : Byte) (h : 4096 ≤ a) : Memory.write m a b = m :=
  if_neg h.not_gt

/-- R54: the k-th byte of a run, where its address lies inside the space, whether the whole run does or not. -/
theorem Memory.read_writeBytes_of_lt (m : Memory) (base : Nat) (bs : List Byte) {k : Nat} (hk : k < bs.length)
    (hr : base + k < 4096) : Memory.read (Memory.writeBytes m base bs) (base + k) = bs[k] := by
  induction bs generalizing m base k with
  | nil => cases hk
  | cons b bs ih =>
    rw [Memory.writeBytes]
    cases k with
    | zero =>
      rw [Memory.read_writeBytes_outside _ _ _ _ (.inl (Nat.lt_succ_self (base + 0))),
        Memory.read_write m base b _ hr, if_pos (Nat.add_zero base).symm]
      rfl
    | succ k =>
      have hshift : base + (k + 1) = base + 1 + k := by omega
      rw [hshift, ih _ _ (Nat.lt_of_succ_lt_succ hk) (hshift ▸ hr)]
      rfl

/-- R67: no run of writes reaches an address beyond the space. -/
theorem Memory.read_writeBytes_of_le (m : Memory) (base : Nat) (bs : List Byte) {a : Nat} (h : 4096 ≤ a) :
    Memory.read (Memory.writeBytes m base bs) a = Memory.read m a := by
  induction bs generalizing m base with
  | nil => rfl
  | cons b bs ih =>
    rw [Memory.writeBytes, ih]
    by_cases hb : base = a
    · rw [hb, Memory.write_of_le m b h]
    · exact Memory.read_write_other m base b a hb

/-- R212: a run of loads is one run of writes. -/
theorem State.hostLoadFrom_eq (base : Nat) (bs : List Byte) (s : State) :
    State.hostLoadFrom base bs s = s.setMem (Memory.writeBytes s.mem base bs) := by
  induction bs generalizing base s with
  | nil => rfl
  | cons b bs ih =>
    rw [State.hostLoadFrom, ih, State.hostLoad_eq]
    rfl

/-- R212: program load is one run of writes from 0x200. -/
theorem State.loadProgram_eq (bs : List Byte) (s : State) :
    s.loadProgram bs = s.setMem (Memory.writeBytes s.mem 512 bs) :=
  State.hostLoadFrom_eq 512 bs s

/-- Settles O48: program load is a run of writes to memory alone. -/
theorem programIsLoadedFrom0x200 : Obligations.ProgramIsLoadedFrom0x200 := by
  intro s bytes
  rw [State.loadProgram_eq]
  refine ⟨fun k hk hr => ?_, Memory.read_writeBytes_outside s.mem 512 bytes,
    fun a => Memory.read_writeBytes_of_le s.mem 512 bytes, rfl⟩
  rw [State.setMem_mem, Memory.read_writeBytes_of_lt _ _ _ hk hr, List.getElem?_eq_getElem hk]

end Sys2Proof.Machine
end

section
/-! PROOFS. Faults (R183, R184, R188, R189): which instruction raises which fault, with which record, and that raising one
changes only status and, behind the advance, pc. -/

namespace Sys2Proof.Machine

variable {s t : State}

/-- R183: the transfers through I that have a byte out of range. -/
def OutOfRangeTransfer (i : Instr) (s : State) : Prop :=
  (∃ x, i = .ldBVx x ∧ 4096 ≤ s.i.toNat + 2) ∨
  (∃ x, (i = .storeRegs x ∨ i = .loadRegs x) ∧ 4096 ≤ s.i.toNat + x.toNat) ∨
  (∃ x y n, i = .drw x y n ∧ 0 < n.toNat ∧ 4096 ≤ s.i.toNat + n.toNat - 1)

/-- R183: the cause and the record of each fault an instruction can raise. -/
def RaisedBy (i : Instr) (s : State) : Fault → Prop
  | .unknownOpcode _ _ => False
  | .stackUnderflow a => a = s.pc ∧ i = .ret ∧ s.stack = []
  | .stackOverflow a => a = s.pc ∧ (∃ nnn, i = .call nnn) ∧ s.stackDepth ≤ s.stack.length
  | .outOfBoundsAccess a addr => a = s.pc ∧ addr = lowestOutOfRange s.i ∧ OutOfRangeTransfer i s

/-- R183, R189: a next state that is Faulted, behind an instruction that started in no fault, is its fault and nothing
else. -/
def FaultIsPrecise (i : Instr) (s t : State) : Prop :=
  ∀ f, t.status = .faulted f → t = afterFault f s ∧ RaisedBy i s f

/-- R184: raising a fault behind the advance is precise where the fault has its cause. -/
theorem faultIsPrecise_afterFault {i : Instr} {g : Fault} (hg : RaisedBy i s g) :
    FaultIsPrecise i s (afterFault g s) := by
  intro f hf
  obtain rfl : g = f := Status.faulted.inj hf
  exact ⟨rfl, hg⟩

/-- A next state that is not Faulted has no fault to account for. -/
theorem faultIsPrecise_of_status {i : Instr} (h : ∀ f, t.status ≠ .faulted f) : FaultIsPrecise i s t :=
  fun f hf => absurd hf (h f)

/-- R143, R189: a transfer's fault is precise where its range check fails only for an out-of-range transfer. -/
theorem faultIsPrecise_of_withRange {i : Instr} {m : Nat} {effect : State → State}
    (heff : ∀ f, (effect s.advance).status ≠ .faulted f)
    (hbad : 0 < m → 4096 < s.i.toNat + m → OutOfRangeTransfer i s) (h : withRange m effect s = .next t) :
    FaultIsPrecise i s t := by
  rcases Nat.lt_or_ge 0 m with hpos | hzero
  · rcases Nat.lt_or_ge 4096 (s.i.toNat + m) with hout | hin
    · exact of_eq_next (withRange_of_outOfRange effect hpos hout) h
        (faultIsPrecise_afterFault ⟨rfl, rfl, hbad hpos hout⟩)
    · exact of_eq_next (withRange_of_inRange effect (.inr hin)) h (faultIsPrecise_of_status heff)
  · exact of_eq_next (withRange_of_inRange effect (.inl (Nat.le_zero.1 hzero))) h (faultIsPrecise_of_status heff)

/-- R183, R189: every instruction of the Running machine faults precisely, and only from its own cause. -/
theorem faultIsPrecise_of_exec {i : Instr} (hs : s.status = .running) (h : exec i s = .next t) :
    FaultIsPrecise i s t := by
  have hok {u : State} (hu : u.status = s.status) : FaultIsPrecise i s u :=
    faultIsPrecise_of_status fun f hf => by rw [hu, hs] at hf; cases hf
  have hrun (f : Fault) : s.status ≠ .faulted f := by rw [hs]; exact nofun
  cases i
  case halt => exact of_eq_next rfl h (faultIsPrecise_of_status fun _ => nofun)
  case ret => exact of_exec_ret h (fun hnil => faultIsPrecise_afterFault ⟨rfl, rfl, hnil⟩) fun _ _ _ => hok rfl
  case call nnn =>
    exact of_exec_call h (fun _ => hok rfl) fun hfull => faultIsPrecise_afterFault ⟨rfl, ⟨nnn, rfl⟩, hfull⟩
  case seImm | sneImm | seReg | sneReg | skp | sknp => exact of_eq_next rfl h (hok (by rw [State.skipIf_eq]; rfl))
  case ldBVx x => exact faultIsPrecise_of_withRange hrun (fun _ hout => .inl ⟨x, rfl, by omega⟩) h
  case storeRegs x => exact faultIsPrecise_of_withRange hrun (fun _ hout => .inr (.inl ⟨x, .inl rfl, by omega⟩)) h
  case loadRegs x => exact faultIsPrecise_of_withRange hrun (fun _ hout => .inr (.inl ⟨x, .inr rfl, by omega⟩)) h
  case drw x y n =>
    exact faultIsPrecise_of_withRange hrun (fun hpos hout => .inr (.inr ⟨x, y, n, rfl, hpos, by omega⟩)) h
  case ldVxK => exact of_eq_next rfl h (faultIsPrecise_of_status fun _ => nofun)
  all_goals exact of_eq_next rfl h (hok rfl)

/-- R184, R188, R189: the three ways a step of the Running machine can end in a fault. -/
theorem faulted_step_cases {f : Fault} (hs : s.status = .running) (h : step s = .next t) (hf : t.status = .faulted f) :
    (s.fetch = .error f ∧ t = s.raise f) ∨
    (∃ op, s.fetch = .ok op ∧ wellFormedWord op = false ∧ f = .unknownOpcode s.pc op ∧ t = afterFault f s) ∨
    (∃ i, Fetched i s ∧ RaisedBy i s f ∧ t = afterFault f s) := by
  obtain ⟨hstop, -⟩ | ⟨x, hwait, -⟩ | ⟨-, ⟨g, hg, hfault⟩ | ⟨op, i, hop, hd, hexec⟩ | ⟨op, hop, hd, hunknown⟩⟩ :=
    step_cases s
  · rw [hs] at hstop
    obtain hstop | ⟨g, hstop⟩ := hstop <;> cases hstop
  · cases hs.symm.trans hwait
  · obtain rfl := Host.Outcome.next.inj (hfault.symm.trans h)
    obtain rfl : g = f := Status.faulted.inj hf
    exact .inl ⟨hg, rfl⟩
  · obtain ⟨ht, hraised⟩ := faultIsPrecise_of_exec hs (hexec.symm.trans h) f hf
    exact .inr (.inr ⟨i, ⟨hs, op, hop, hd⟩, hraised, ht⟩)
  · obtain rfl := Host.Outcome.next.inj (hunknown.symm.trans h)
    obtain rfl : _ = f := Status.faulted.inj hf
    exact .inr (.inl ⟨op, hop, (wellFormedWord_eq_false_iff op).2 hd, rfl, rfl⟩)

/-- Settles O50: a fault of the fetch leaves pc, and every other one is raised behind the advance. -/
theorem faultsArePrecise : Obligations.FaultsArePrecise := by
  intro s t f hs h hf
  obtain ⟨herr, ht⟩ | ⟨op, hop, -, -, ht⟩ | ⟨i, ⟨-, op, hop, -⟩, -, ht⟩ := faulted_step_cases hs h hf
  · exact .inl ⟨herr, ht⟩
  · exact .inr ⟨⟨op, hop⟩, ht⟩
  · exact .inr ⟨⟨op, hop⟩, ht⟩

/-- R59, R91: the record of a fetch fault. -/
theorem fetch_error_cause {f : Fault} (h : s.fetch = .error f) :
    4095 ≤ s.pc.toNat ∧ f = .outOfBoundsAccess s.pc (lowestOutOfRange s.pc) := by
  obtain ⟨-, hok⟩ | ⟨hlast, herr⟩ | ⟨hout, herr⟩ := s.fetch_cases
  · cases hok.symm.trans h
  · have haddr : lowestOutOfRange s.pc = 0x1000#16 := if_pos (hlast.trans_lt (by decide))
    exact ⟨hlast.ge, haddr ▸ (Except.error.inj (herr.symm.trans h)).symm⟩
  · have haddr : lowestOutOfRange s.pc = s.pc := if_neg hout.not_gt
    refine ⟨by omega, ?_⟩
    rw [haddr]
    exact (Except.error.inj (herr.symm.trans h)).symm

/-- R143, R183: the lowest address outside the space is outside it. -/
theorem le_toNat_lowestOutOfRange (base : Word) : 4096 ≤ (lowestOutOfRange base).toNat := by
  rw [← rangeAddr_eq_lowestOutOfRange]
  exact toNat_rangeAddr base

/-- R183: an out-of-range transfer that is fetched is one of the four forms. -/
theorem fetched_of_outOfRangeTransfer {i : Instr} (hi : Fetched i s) (h : OutOfRangeTransfer i s) :
    (∃ x, Fetched (.ldBVx x) s ∧ 4096 ≤ s.i.toNat + 2) ∨
    (∃ x, (Fetched (.storeRegs x) s ∨ Fetched (.loadRegs x) s) ∧ 4096 ≤ s.i.toNat + x.toNat) ∨
    (∃ x y n, Fetched (.drw x y n) s ∧ 0 < n.toNat ∧ 4096 ≤ s.i.toNat + n.toNat - 1) := by
  obtain ⟨x, rfl, hout⟩ | ⟨x, rfl | rfl, hout⟩ | ⟨x, y, n, rfl, hpos, hout⟩ := h
  · exact .inl ⟨x, hi, hout⟩
  · exact .inr (.inl ⟨x, .inl hi, hout⟩)
  · exact .inr (.inl ⟨x, .inr hi, hout⟩)
  · exact .inr (.inr ⟨x, y, n, hi, hpos, hout⟩)

/-- Settles O51: a fault comes from the fetch, from an unknown word, or from the instruction that raises it, and each of the
three has its own records. -/
theorem faultsHaveTheirCause : Obligations.FaultsHaveTheirCause := by
  intro s t hs h
  refine ⟨fun a op hf => ?_, fun a hf => ?_, fun a hf => ?_, fun a addr hf => ?_⟩
  all_goals obtain ⟨herr, -⟩ | ⟨op', hop, hwf, hrec, -⟩ | ⟨i, hi, hraised, -⟩ := faulted_step_cases hs h hf
  case refine_1.inl | refine_2.inl | refine_3.inl => cases (fetch_error_cause herr).2
  case refine_2.inr.inl | refine_3.inr.inl | refine_4.inr.inl => cases hrec
  case refine_1.inr.inl =>
    obtain ⟨rfl, rfl⟩ := Fault.unknownOpcode.inj hrec
    exact ⟨rfl, hop, hwf⟩
  case refine_1.inr.inr => exact hraised.elim
  case refine_2.inr.inr =>
    obtain ⟨ha, rfl, hstack⟩ := hraised
    exact ⟨ha, hi, hstack⟩
  case refine_3.inr.inr =>
    obtain ⟨ha, ⟨nnn, rfl⟩, hfull⟩ := hraised
    exact ⟨ha, ⟨nnn, hi⟩, hfull⟩
  case refine_4.inl =>
    obtain ⟨hpc, hrec⟩ := fetch_error_cause herr
    obtain ⟨rfl, rfl⟩ := Fault.outOfBoundsAccess.inj hrec
    exact ⟨rfl, le_toNat_lowestOutOfRange _, .inl ⟨hpc, rfl⟩⟩
  case refine_4.inr.inr =>
    obtain ⟨ha, rfl, hout⟩ := hraised
    exact ⟨ha, le_toNat_lowestOutOfRange _, .inr ⟨rfl, fetched_of_outOfRangeTransfer hi hout⟩⟩

end Sys2Proof.Machine
end

section
/-! PROOFS. pc after every instruction (R97). -/

namespace Sys2Proof.Machine

/-- R92: a transfer through I goes to the following instruction, faulting or not, where its effect leaves pc. -/
theorem nextPc_of_withRange {m : Nat} {effect : State → State} {s t : State}
    (heff : (effect s.advance).pc = s.pc + 2#16) (h : withRange m effect s = .next t) : NextPc s t := by
  refine of_withRange h ?_ fun _ _ => nextPc_advance s
  rw [NextPc, heff]
  exact nextPc_advance s

/-- Settles O52: by the instruction the step runs. -/
theorem pcAfterEveryInstr : Obligations.PcAfterEveryInstr := by
  intro s t i hi h
  have hexec : exec i s = .next t := (stepBy_of_fetched hi).symm.trans h
  cases i <;> dsimp only
  case halt => exact field_of_eq_next (exec_halt s) hexec rfl
  case ret =>
    obtain ⟨hstack, hret⟩ | ⟨w, rest, hstack, hret⟩ := exec_ret_cases s <;> rw [hstack] <;>
      obtain rfl := Host.Outcome.next.inj (hret.symm.trans hexec)
    · exact nextPc_advance s
    · rfl
  case jp nnn =>
    obtain rfl := Host.Outcome.next.inj ((exec_jp nnn s).symm.trans hexec)
    exact toNat_zextAddr nnn
  case call nnn =>
    obtain ⟨hroom, hcall⟩ | ⟨hfull, hcall⟩ := exec_call_cases nnn s <;>
      obtain rfl := Host.Outcome.next.inj (hcall.symm.trans hexec)
    · rw [if_pos hroom]
      exact toNat_zextAddr nnn
    · rw [if_neg hfull.not_gt]
      exact nextPc_advance s
  case jpV0 nnn =>
    obtain rfl := Host.Outcome.next.inj ((exec_jpV0 nnn s).symm.trans hexec)
    exact toNat_jpV0_target nnn _
  case seImm | seReg => exact of_eq_next rfl hexec (skipPc_advance_skipIf s beq_iff_eq)
  case sneImm | sneReg => exact of_eq_next rfl hexec (skipPc_advance_skipIf s bne_iff_ne)
  case skp x => exact of_eq_next (exec_skp x s) hexec (skipPc_advance_skipIf s Iff.rfl)
  case sknp x => exact of_eq_next (exec_sknp x s) hexec (skipPc_advance_skipIf s (Bool.not_eq_true' _ ▸ Iff.rfl))
  case drw | ldBVx | storeRegs | loadRegs => exact nextPc_of_withRange rfl hexec
  all_goals exact of_eq_next rfl hexec (nextPc_advance s)

end Sys2Proof.Machine
end

section
/-! PROOFS. The sound timer and the keyboard latch do not leak (R32, R33): an instruction that neither writes ST nor tests
the key does the same whatever the two hold. -/

namespace Sys2Proof.Machine

variable {s t : State}

/-- The state with other contents of ST and KEY. -/
def State.withStKey (s : State) (b : Byte) (k : Option Key) : State :=
  (s.setSt b).setKey k

/-- R103: a skip commutes with other contents of ST and KEY. -/
theorem State.skipIf_withStKey (s : State) (c : Bool) (b : Byte) (k : Option Key) :
    (s.withStKey b k).skipIf c = (s.skipIf c).withStKey b k := by
  cases c <;> rfl

/-- R143: so does a transfer through I whose effect does. -/
theorem withRange_withStKey {m : Nat} {effect : State → State} {b : Byte} {k : Option Key}
    (heff : effect (s.advance.withStKey b k) = (effect s.advance).withStKey b k) (h : withRange m effect s = .next t) :
    withRange m effect (s.withStKey b k) = .next (t.withStKey b k) := by
  obtain ⟨hin, heq⟩ | ⟨hpos, hout, heq⟩ := withRange_cases m effect s
  · obtain rfl := Host.Outcome.next.inj (heq.symm.trans h)
    rw [← heff]
    exact withRange_of_inRange (s := s.withStKey b k) effect hin
  · obtain rfl := Host.Outcome.next.inj ((withRange_of_outOfRange effect hpos hout).symm.trans h)
    exact withRange_of_outOfRange (s := s.withStKey b k) effect hpos hout

/-- R32, R33: so does every instruction but Fx18, Ex9E and ExA1. -/
theorem exec_withStKey {i : Instr} (b : Byte) (k : Option Key) (hst : ∀ x, i ≠ .ldStVx x)
    (hkey : ∀ x, i ≠ .skp x ∧ i ≠ .sknp x) (h : exec i s = .next t) :
    exec i (s.withStKey b k) = .next (t.withStKey b k) := by
  cases i
  case ret =>
    obtain ⟨hstack, hret⟩ | ⟨w, rest, hstack, hret⟩ := exec_ret_cases s <;>
      obtain rfl := Host.Outcome.next.inj (hret.symm.trans h)
    · exact exec_ret_of_nil (s := s.withStKey b k) hstack
    · exact exec_ret_of_cons (s := s.withStKey b k) hstack
  case call nnn =>
    obtain ⟨hroom, hcall⟩ | ⟨hfull, hcall⟩ := exec_call_cases nnn s <;>
      obtain rfl := Host.Outcome.next.inj (hcall.symm.trans h)
    · exact exec_call_of_lt (s := s.withStKey b k) nnn hroom
    · exact exec_call_of_le (s := s.withStKey b k) nnn hfull
  case skp x => exact absurd rfl (hkey x).1
  case sknp x => exact absurd rfl (hkey x).2
  case ldStVx x => exact absurd rfl (hst x)
  case drw | ldBVx | storeRegs | loadRegs => exact withRange_withStKey rfl h
  case seImm | sneImm | seReg | sneReg =>
    obtain rfl := Host.Outcome.next.inj h
    exact congrArg Host.Outcome.next (s.advance.skipIf_withStKey _ b k)
  all_goals
    obtain rfl := Host.Outcome.next.inj h
    rfl

/-- R32: no instruction reads ST. -/
theorem exec_setSt_of_exec {i : Instr} {u : State} {b : Byte} (h : exec i s = .next t)
    (hu : exec i (s.setSt b) = .next u) : u.setSt 0x00#8 = t.setSt 0x00#8 := by
  by_cases hst : ∃ x, i = .ldStVx x
  · obtain ⟨x, rfl⟩ := hst
    obtain rfl := Host.Outcome.next.inj h
    obtain rfl := Host.Outcome.next.inj hu
    rfl
  by_cases hkey : ∃ x, i = .skp x ∨ i = .sknp x
  · obtain ⟨x, rfl | rfl⟩ := hkey <;>
      obtain rfl := Host.Outcome.next.inj h <;> obtain rfl := Host.Outcome.next.inj hu <;>
      rw [State.skipIf_eq, State.skipIf_eq] <;> rfl
  push Not at hst hkey
  obtain rfl := Host.Outcome.next.inj ((exec_withStKey b s.key hst hkey h).symm.trans hu)
  rw [← key_of_exec h]
  rfl

/-- R33: of the instructions only Ex9E and ExA1 read KEY. -/
theorem exec_setKey_of_exec {i : Instr} {u : State} {k : Option Key} (hkey : ∀ x, i ≠ .skp x ∧ i ≠ .sknp x)
    (h : exec i s = .next t) (hu : exec i (s.setKey k) = .next u) : u.setKey none = t.setKey none := by
  by_cases hst : ∃ x, i = .ldStVx x
  · obtain ⟨x, rfl⟩ := hst
    obtain rfl := Host.Outcome.next.inj h
    obtain rfl := Host.Outcome.next.inj hu
    rfl
  obtain ⟨-, -, -, -, hstSame, -⟩ := writesOnlyItsFields_of_exec h
  have hsame : t.st = s.st := by
    by_contra hne
    exact hst (hstSame hne)
  push Not at hst
  obtain rfl := Host.Outcome.next.inj ((exec_withStKey s.st k hst hkey h).symm.trans hu)
  rw [← hsame]
  rfl

/-- Settles O54: two runs from states that differ in one of the two end in states that differ there alone. -/
theorem soundTimerAndKeyDoNotLeak : Obligations.SoundTimerAndKeyDoNotLeak :=
  fun _ _ _ _ _ _ => ⟨exec_setSt_of_exec, exec_setKey_of_exec⟩

end Sys2Proof.Machine
end

section
/-! PROOFS. The blit (R161 to R164) as one pass over the sprite's bits, each with the pixel it falls on: for a sprite of at
most 32 rows these pixels are all different, so each is XORed at most once. -/

namespace Sys2Proof.Machine

/-- A pixel's place, by row and column. -/
abbrev Place := Fin 32 × Fin 64

/-- R163: bits XORed into their pixels, one after another. -/
def blitBits (bits : List (Place × Bool)) (acc : Blitted) : Blitted :=
  bits.foldl (fun a p => blitPixel p.1.1 p.1.2 p.2 a) acc

/-- R163: the bits of one sprite byte, most significant first, with their pixels. -/
def rowBits (ox : Nat) (r : Fin 32) (b : Byte) : List (Place × Bool) :=
  (List.range 8).map fun j => ((r, blitColOf ox j), b.getLsbD (7 - j))

/-- R163: the bits of the sprite's rows from row i on, with their pixels. -/
def spriteBits (ox oy : Nat) : Nat → List Byte → List (Place × Bool)
  | _, [] => []
  | i, b :: bs => rowBits ox (blitRowOf oy i) b ++ spriteBits ox oy (i + 1) bs

/-! ### the blit as one pass -/

theorem blitByte_eq_blitBits (ox : Nat) (r : Fin 32) (b : Byte) (acc : Blitted) :
    blitByte ox r b acc = blitBits (rowBits ox r b) acc := by
  rw [blitByte, blitBits, rowBits, List.foldl_map]

theorem blitRows_eq_blitBits (ox oy i : Nat) (sprite : List Byte) (acc : Blitted) :
    blitRows ox oy i sprite acc = blitBits (spriteBits ox oy i sprite) acc := by
  induction sprite generalizing i acc with
  | nil => rfl
  | cons b bs ih => rw [blitRows, ih, blitByte_eq_blitBits, spriteBits, blitBits, blitBits, blitBits, List.foldl_append]

theorem blit_eq_blitBits (ox oy : Byte) (sprite : List Byte) (fb : Framebuffer) :
    blit ox oy sprite fb = blitBits (spriteBits ox.toNat oy.toNat 0 sprite) (fb, false) :=
  blitRows_eq_blitBits _ _ 0 sprite _

/-! ### bits on different pixels -/

/-- R163: bits on different pixels flip exactly those whose bit is set. -/
theorem pixel_blitBits {bits : List (Place × Bool)} (hbits : (bits.map Prod.fst).Nodup) (acc : Blitted) (r : Fin 32)
    (c : Fin 64) : (blitBits bits acc).1.pixel r c = (acc.1.pixel r c ^^ decide (((r, c), true) ∈ bits)) := by
  induction bits generalizing acc with
  | nil => simp [blitBits]
  | cons p bits ih =>
    obtain ⟨⟨r', c'⟩, b⟩ := p
    obtain ⟨hfresh, hrest⟩ := List.nodup_cons.1 hbits
    have hstep := ih hrest (blitPixel r' c' b acc)
    rw [pixel_blitPixel] at hstep
    refine Eq.trans hstep ?_
    by_cases hplace : r' = r ∧ c' = c
    · obtain ⟨rfl, rfl⟩ := hplace
      have hnot : ((r', c'), true) ∉ bits := fun hmem => hfresh (List.mem_map.2 ⟨_, hmem, rfl⟩)
      cases b <;> simp [hnot]
    · have hne : ((r, c), true) ≠ ((r', c'), b) := by
        simp only [ne_eq, Prod.mk.injEq]
        exact fun h => hplace ⟨h.1.1.symm, h.1.2.symm⟩
      simp [hplace, hne]

/-- R164: bits on different pixels collide iff a set one falls on a pixel that is 1. -/
theorem collision_blitBits {bits : List (Place × Bool)} (hbits : (bits.map Prod.fst).Nodup) (acc : Blitted) :
    (blitBits bits acc).2 = true ↔
      acc.2 = true ∨ ∃ r c, ((r, c), true) ∈ bits ∧ acc.1.pixel r c = true := by
  induction bits generalizing acc with
  | nil => simp [blitBits]
  | cons p bits ih =>
    obtain ⟨⟨r', c'⟩, b⟩ := p
    obtain ⟨hfresh, hrest⟩ := List.nodup_cons.1 hbits
    have hsame {r : Fin 32} {c : Fin 64} (hmem : ((r, c), true) ∈ bits) :
        (blitPixel r' c' b acc).1.pixel r c = acc.1.pixel r c := by
      have hne : ¬ (r' = r ∧ c' = c) := by
        rintro ⟨rfl, rfl⟩
        exact hfresh (List.mem_map.2 ⟨_, hmem, rfl⟩)
      simp [pixel_blitPixel, hne]
    have hfirst : (blitPixel r' c' b acc).2 = true ↔ acc.2 = true ∨ (b = true ∧ acc.1.pixel r' c' = true) := by
      simp [blitPixel]
    refine (ih hrest (blitPixel r' c' b acc)).trans ?_
    rw [hfirst, or_assoc]
    refine or_congr_right ⟨?_, ?_⟩
    · rintro (⟨rfl, hon⟩ | ⟨r, c, hmem, hon⟩)
      · exact ⟨r', c', List.mem_cons_self, hon⟩
      · exact ⟨r, c, List.mem_cons_of_mem _ hmem, hsame hmem ▸ hon⟩
    · rintro ⟨r, c, hmem, hon⟩
      obtain heq | hmem := List.mem_cons.1 hmem
      · obtain ⟨⟨rfl, rfl⟩, rfl⟩ : (r = r' ∧ c = c') ∧ true = b := by simpa using heq
        exact .inl ⟨rfl, hon⟩
      · exact .inr ⟨r, c, hmem, (hsame hmem).symm ▸ hon⟩

/-! ### where a sprite's bits fall -/

/-- R163: a set bit of one byte, and the pixel it falls on. -/
theorem mem_rowBits {ox : Nat} {r r' : Fin 32} {c : Fin 64} {b : Byte} :
    ((r', c), true) ∈ rowBits ox r b ↔
      ∃ j, j < 8 ∧ b.getLsbD (7 - j) = true ∧ r' = r ∧ c.val = (ox + j) % 64 := by
  simp only [rowBits, List.mem_map, List.mem_range, Prod.mk.injEq, blitColOf, Fin.ext_iff, Fin.val_ofNat]
  constructor
  · rintro ⟨j, hj, ⟨hr, hc⟩, hb⟩
    exact ⟨j, hj, hb, hr.symm, hc.symm⟩
  · rintro ⟨j, hj, hb, hr, hc⟩
    exact ⟨j, hj, ⟨hr.symm, hc.symm⟩, hb⟩

/-- R163: a set bit of a sprite, and the pixel it falls on. -/
theorem mem_spriteBits {ox oy i : Nat} {sprite : List Byte} {r : Fin 32} {c : Fin 64} :
    ((r, c), true) ∈ spriteBits ox oy i sprite ↔
      ∃ (k j : Nat) (b : Byte), sprite[k]? = some b ∧ j < 8 ∧ b.getLsbD (7 - j) = true ∧
        r.val = (oy + (i + k)) % 32 ∧ c.val = (ox + j) % 64 := by
  induction sprite generalizing i with
  | nil => simp [spriteBits]
  | cons b bs ih =>
    rw [spriteBits, List.mem_append, mem_rowBits, ih]
    constructor
    · rintro (⟨j, hj, hb, hr, hc⟩ | ⟨k, j, b', hk, hj, hb, hr, hc⟩)
      · exact ⟨0, j, b, rfl, hj, hb, congrArg Fin.val hr, hc⟩
      · exact ⟨k + 1, j, b', hk, hj, hb, by rwa [Nat.add_comm k 1, ← Nat.add_assoc i 1 k], hc⟩
    · rintro ⟨k, j, b', hk, hj, hb, hr, hc⟩
      cases k with
      | zero =>
        obtain rfl : b = b' := Option.some.inj hk
        exact .inl ⟨j, hj, hb, Fin.ext hr, hc⟩
      | succ k => exact .inr ⟨k, j, b', hk, hj, hb, by rwa [Nat.add_assoc i 1 k, Nat.add_comm 1 k], hc⟩

/-- R163: the set bits of a whole sprite fall on the pixels it covers. -/
theorem mem_spriteBits_iff_spriteCovers {ox oy : Byte} {sprite : List Byte} {r : Fin 32} {c : Fin 64} :
    ((r, c), true) ∈ spriteBits ox.toNat oy.toNat 0 sprite ↔ spriteCovers ox oy sprite r c := by
  simp only [mem_spriteBits, Nat.zero_add]
  rfl

/-- R163: the bits of one byte fall on different columns. -/
theorem nodup_rowBits (ox : Nat) (r : Fin 32) (b : Byte) : ((rowBits ox r b).map Prod.fst).Nodup := by
  rw [rowBits, List.map_map]
  refine List.nodup_range.map_on fun j hj j' hj' h => ?_
  rw [List.mem_range] at hj hj'
  have hcol : (ox + j) % 64 = (ox + j') % 64 := congrArg (fun p : Place => p.2.val) h
  omega

/-- R163: the bits of a sprite fall on its own rows. -/
theorem row_of_mem_spriteBits {ox oy i : Nat} {sprite : List Byte} {p : Place × Bool}
    (h : p ∈ spriteBits ox oy i sprite) : ∃ k < sprite.length, p.1.1.val = (oy + (i + k)) % 32 := by
  induction sprite generalizing i with
  | nil => cases h
  | cons b bs ih =>
    obtain h | h := List.mem_append.1 h
    · obtain ⟨j, -, rfl⟩ := List.mem_map.1 h
      exact ⟨0, Nat.succ_pos _, rfl⟩
    · obtain ⟨k, hk, hrow⟩ := ih h
      exact ⟨k + 1, Nat.succ_lt_succ hk, by rwa [Nat.add_comm k 1, ← Nat.add_assoc i 1 k]⟩

/-- R163: the bits of a sprite of at most 32 rows fall on different pixels. -/
theorem nodup_spriteBits (ox oy i : Nat) {sprite : List Byte} (h : sprite.length ≤ 32) :
    ((spriteBits ox oy i sprite).map Prod.fst).Nodup := by
  induction sprite generalizing i with
  | nil => exact List.nodup_nil
  | cons b bs ih =>
    rw [List.length_cons] at h
    rw [spriteBits, List.map_append, List.nodup_append']
    refine ⟨nodup_rowBits ox _ b, ih _ (by omega), fun place hrow hrest => ?_⟩
    obtain ⟨p, hp, rfl⟩ := List.mem_map.1 hrow
    obtain ⟨j, -, rfl⟩ := List.mem_map.1 hp
    obtain ⟨q, hq, hplace⟩ := List.mem_map.1 hrest
    obtain ⟨k, hk, hqrow⟩ := row_of_mem_spriteBits hq
    have hrow : (oy + (i + 1 + k)) % 32 = (oy + i) % 32 := hqrow.symm.trans (congrArg (fun p : Place => p.1.val) hplace)
    omega

/-! ### the blit -/

variable {ox oy : Byte} {sprite : List Byte}

/-- R163: a blit flips the pixels its sprite's set bits fall on. -/
theorem pixel_blit (h : sprite.length ≤ 15) (fb : Framebuffer) (r : Fin 32) (c : Fin 64) :
    (blit ox oy sprite fb).1.pixel r c =
      (fb.pixel r c ^^ decide (((r, c), true) ∈ spriteBits ox.toNat oy.toNat 0 sprite)) := by
  rw [blit_eq_blitBits, pixel_blitBits (nodup_spriteBits _ _ _ (h.trans (by decide)))]

/-- R163: a blit leaves a pixel 1 iff it was 1 and is not covered, or was 0 and is. -/
theorem pixel_blit_iff (h : sprite.length ≤ 15) (fb : Framebuffer) (r : Fin 32) (c : Fin 64) :
    (blit ox oy sprite fb).1.pixel r c = true ↔ ¬ (fb.pixel r c = true ↔ spriteCovers ox oy sprite r c) := by
  rw [pixel_blit h, ← mem_spriteBits_iff_spriteCovers]
  cases fb.pixel r c <;> simp

/-- R164: a blit reports a collision iff a pixel went from 1 to 0. -/
theorem collision_blit_iff (h : sprite.length ≤ 15) (fb : Framebuffer) :
    (blit ox oy sprite fb).2 = true ↔ turnedOff fb (blit ox oy sprite fb).1 := by
  have hcollide := collision_blitBits (nodup_spriteBits ox.toNat oy.toNat 0 (h.trans (by decide))) (fb, false)
  rw [← blit_eq_blitBits] at hcollide
  rw [hcollide, turnedOff]
  simp only [Bool.false_eq_true, false_or]
  refine exists_congr fun r => exists_congr fun c => ?_
  rw [pixel_blit h]
  cases fb.pixel r c <;> simp

/-- Settles O38: the pixels flipped are those the set bits fall on, and each is flipped once. -/
theorem blitFlipsCoveredPixels : Obligations.BlitFlipsCoveredPixels :=
  fun _ _ _ fb h => ⟨pixel_blit_iff h fb, collision_blit_iff h fb⟩

/-- R164: two identical blits flip every pixel twice or not at all. -/
theorem blit_blit (h : sprite.length ≤ 15) (fb : Framebuffer) :
    (blit ox oy sprite (blit ox oy sprite fb).1).1 = fb := by
  refine Framebuffer.ext_pixel fun r c => ?_
  rw [pixel_blit h, pixel_blit h, Bool.xor_assoc, Bool.xor_self, Bool.xor_false]

/-- Settles O40: the second blit takes the framebuffer back, so it collides iff a pixel goes off on that way. -/
theorem secondBlitRestoresFramebuffer : Obligations.SecondBlitRestoresFramebuffer := by
  intro ox oy sprite fb h
  have hcollide := collision_blit_iff (ox := ox) (oy := oy) h (blit ox oy sprite fb).1
  rw [blit_blit h] at hcollide
  exact ⟨blit_blit h fb, hcollide⟩

/-- Settles O39: Dxyn in range is the blit of the bytes from I, at the origin read before VF is written. -/
theorem drawFlipsSpriteAndSetsCollision : Obligations.DrawFlipsSpriteAndSetsCollision := by
  intro s x y n hr
  have hin : n.toNat = 0 ∨ s.i.toNat + n.toNat ≤ 4096 := hr.imp (congrArg BitVec.toNat) (by omega)
  have hexec : exec (.drw x y n) s = .next (s.advance.drawSprite x y n) := withRange_of_inRange _ hin
  have hlen : (Memory.readBytes s.mem s.i.toNat n.toNat).length ≤ 15 := by
    rw [Memory.length_readBytes]
    exact Nat.le_of_lt_succ n.isLt
  have hflag : (s.advance.drawSprite x y n).getV Reg.flag =
      flagByte (blit (s.getV x) (s.getV y) (Memory.readBytes s.mem s.i.toNat n.toNat) s.fb).2 :=
    State.getV_setV_same _ _ _
  have hcollide := collision_blit_iff (ox := s.getV x) (oy := s.getV y) hlen s.fb
  obtain ⟨hregs, hi, hstack, htimers, hmem, -⟩ := frame_of_exec_drw hexec
  refine ⟨_, Memory.readBytes s.mem s.i.toNat n.toNat, hexec, Memory.length_readBytes _ _ _, fun k hk => ?_,
    pixel_blit_iff hlen s.fb, fun hoff => ?_, fun hoff => ?_, nextPc_advance s, hregs, hi, hstack, htimers, hmem, rfl, rfl,
    rfl⟩
  · have hk' : k < (Memory.readBytes s.mem s.i.toNat n.toNat).length := by rwa [Memory.length_readBytes]
    rw [List.getElem?_eq_getElem hk', Memory.getElem_readBytes]
  · rw [hflag, hcollide.2 hoff]
    rfl
  · rw [hflag, Bool.eq_false_iff.2 fun hc => hoff (hcollide.1 hc)]
    rfl

end Sys2Proof.Machine
end

section
/-! PROOFS. Schedules of the host (R173, R186, R190 to R192): a pending key wait, a run of ticks, and the clearing of a
fault. -/

namespace Sys2Proof.Machine

variable {s t u : State}

/-- A schedule goes on from where another one ends. -/
theorem runOps_append {ops ops' : List HostOp} (h : runOps ops s = .next u) :
    runOps (ops ++ ops') s = runOps ops' u := by
  induction ops generalizing s with
  | nil =>
    obtain rfl : s = u := Host.Outcome.next.inj h
    rfl
  | cons op ops ih =>
    obtain ⟨v, hfirst, hrest⟩ := exists_transition_of_runOps_cons h
    rw [List.cons_append, runOps_cons_of_next hfirst]
    exact ih hrest

/-! ### the key wait -/

/-- R173: a step of a waiting machine without a key changes nothing. -/
theorem step_of_waiting_none {x : Reg} (r : Byte) (hs : s.status = .waiting x) (hkey : s.key = none) :
    transition (.step r) s = .next s := by
  refine (stepBy_of_waiting hs).trans ?_
  simp only [keyWait, hkey, complete_eq]

/-- R173: a step of a waiting machine that sees a key stores it and runs on. -/
theorem step_of_waiting_some {x : Reg} (r : Byte) {k : Key} (hs : s.status = .waiting x) (hkey : s.key = some k) :
    transition (.step r) s = .next ((s.setV x (k.setWidth 8)).setStatus .running) := by
  refine (stepBy_of_waiting hs).trans ?_
  simp only [keyWait, hkey, complete_eq]

/-- R173: any number of steps of a waiting machine without a key changes nothing. -/
theorem runOps_steps_of_waiting_none {x : Reg} (hs : s.status = .waiting x) (hkey : s.key = none) (rs : List Byte) :
    runOps (rs.map .step) s = .next s := by
  induction rs with
  | nil => rfl
  | cons r rs ih =>
    rw [List.map_cons, runOps_cons_of_next (step_of_waiting_none r hs hkey)]
    exact ih

/-- R173: a key press and a step complete the wait. -/
theorem runOps_press_step_of_waiting {x : Reg} (r : Byte) (k : Key) (hs : s.status = .waiting x) :
    runOps [.setPressed (some k), .step r] s =
      .next (((s.setPressed (some k)).setV x (k.setWidth 8)).setStatus .running) := by
  have hstep := step_of_waiting_some (s := s.setPressed (some k)) r hs rfl
  rw [runOps_cons_of_next rfl, runOps_cons_of_next hstep, runOps]

/-- Settles O44: the keyless steps leave the waiting state, and the first step that sees a key is its completion. -/
theorem keyWaitEndsWithTheKey : Obligations.KeyWaitEndsWithTheKey := by
  intro s t x rs r k h
  obtain rfl := Host.Outcome.next.inj ((exec_ldVxK x s).symm.trans h)
  have hwait : runOps (.setPressed none :: rs.map .step) (s.advance.setStatus (.waiting x)) =
      .next ((s.advance.setStatus (.waiting x)).setPressed none) :=
    (runOps_cons_of_next rfl).trans (runOps_steps_of_waiting_none rfl rfl rs)
  have hdone := (runOps_append hwait).trans (runOps_press_step_of_waiting r k rfl)
  refine ⟨hwait, _, hdone, ?_, rfl, nextPc_advance s, fun y hy => ?_, rfl, ⟨rfl, rfl⟩, ⟨rfl, rfl⟩, fun _ => rfl,
    fun _ _ => rfl, rfl, rfl⟩
  · rw [State.setStatus_getV, State.getV_setV_same, BitVec.toNat_setWidth_of_le (by decide)]
  · rw [State.setStatus_getV, State.getV_setV_other _ _ (List.ne_of_not_mem_cons hy).symm]
    rfl

/-! ### ticks -/

/-- R190: a timer counts down by one and stops at 0. -/
theorem toNat_countDown (b : Byte) : (countDown b).toNat = b.toNat - 1 := by
  have hb := b.isLt
  unfold countDown
  split
  · rw [BitVec.toNat_ofNat]
    omega
  · omega

/-- R190, R191: n ticks write the two timers, n less each, and nothing else. -/
theorem exists_runOps_ticks (n : Nat) (s : State) :
    ∃ d e : Byte, runOps (List.replicate n .tick) s = .next ((s.setDt d).setSt e) ∧ d.toNat = s.dt.toNat - n ∧
      e.toNat = s.st.toNat - n := by
  induction n generalizing s with
  | zero => exact ⟨s.dt, s.st, rfl, rfl, rfl⟩
  | succ n ih =>
    obtain ⟨d, e, hrun, hd, he⟩ := ih s.tick
    have hdt : s.tick.dt.toNat = s.dt.toNat - 1 := toNat_countDown s.dt
    have hst : s.tick.st.toNat = s.st.toNat - 1 := toNat_countDown s.st
    exact ⟨d, e, (runOps_cons_of_next rfl).trans hrun, by omega, by omega⟩

/-- Settles O45: by what n ticks write to the two timers. -/
theorem ticksCountDownToZero : Obligations.TicksCountDownToZero := by
  intro s n
  obtain ⟨d, e, hrun, hd, he⟩ := exists_runOps_ticks n s
  refine ⟨_, hrun, hd, he, ?_, rfl, fun _ _ => rfl, rfl, ⟨rfl, rfl⟩, fun _ => rfl, fun _ _ => rfl, rfl, rfl, rfl⟩
  rw [State.soundOn_iff, State.setSt_st, ne_eq, ← BitVec.toNat_inj, he, BitVec.toNat_ofNat, Nat.zero_mod,
    Nat.sub_eq_zero_iff_le, not_le]

/-! ### clearing a fault -/

/-- R186: clearing a fault raised in a Running machine takes the raising back. -/
theorem State.clearFault_raise (hs : s.status = .running) (f : Fault) : (s.raise f).clearFault = s := by
  show s.setStatus .running = s
  rw [← hs]
  rfl

/-- R186: with no fault to clear, clear_fault does nothing. -/
theorem State.clearFault_of_not_faulted (h : ∀ f, s.status ≠ .faulted f) : s.clearFault = s := by
  unfold State.clearFault
  split
  case h_1 f hs => exact absurd hs (h f)
  case h_2 => rfl

/-- Settles O47: clearing takes the raising back, so a faulted fetch starts over and any other fault leaves its advance. -/
theorem clearFaultSkipsOrRetries : Obligations.ClearFaultSkipsOrRetries := by
  intro s f r r'
  refine ⟨fun hs hf => ?_, fun hs => ?_, fun h => congrArg Host.Outcome.next (State.clearFault_of_not_faulted h)⟩
  · have hfault (r : Byte) : transition (.step r) s = .next (s.raise f) := stepBy_of_fetch_error hs hf
    have hclear : transition .clearFault (s.raise f) = .next s :=
      congrArg Host.Outcome.next (State.clearFault_raise hs f)
    rw [runOps_cons_of_next (hfault r), runOps_cons_of_next hclear, runOps_cons_of_next (hfault r')]
    rfl
  · exact congrArg Host.Outcome.next (State.clearFault_raise (s := s.advance) hs f)

end Sys2Proof.Machine
end

section
/-! PROOFS. Reset (R210, R211) and the outputs that report status (R182). -/

namespace Sys2Proof.Machine

/-- R210: the values reset leaves, but for the capacity and the random source. -/
def ListedResetValues (t : State) : Prop :=
  (∀ x : Reg, t.getV x = 0x00#8) ∧ t.i = 0x0000#16 ∧ t.pc = 0x0200#16 ∧ t.stack = [] ∧ t.dt = 0x00#8 ∧ t.st = 0x00#8 ∧
    t.key = none ∧ t.status = .running ∧ (∀ a : Nat, Memory.read t.mem a = 0x00#8) ∧
    (∀ (r : Fin 32) (c : Fin 64), t.fb.pixel r c = false) ∧ t.soundOn = false

/-- R210: the reset state of every capacity, whatever the random source has given. -/
theorem listedResetValues_resetWith (d draws : Nat) :
    ListedResetValues { State.resetWith d with draws := draws } :=
  ⟨fun x => Vector.getElem_replicate x.isLt, rfl, rfl, rfl, rfl, rfl, rfl, rfl, fun _ => rfl,
    Framebuffer.pixel_clear, rfl⟩

/-- Settles O1: the default reset state, that of any capacity and what the reset operation leaves are all reset states of
some capacity. -/
theorem resetLeavesTheListedValues : Obligations.ResetLeavesTheListedValues := by
  refine ⟨fun s t h => ?_, fun s => ⟨s.hostReset, rfl, rfl, rfl⟩, rfl, State.resetWith_stackDepth⟩
  obtain rfl | ⟨d, rfl⟩ | h := h
  · exact listedResetValues_resetWith Config.stackDepth 0
  · exact listedResetValues_resetWith d 0
  · obtain rfl : s.hostReset = t := Host.Outcome.next.inj h
    exact listedResetValues_resetWith s.stackDepth s.draws

/-- Settles O60: both outputs are read from status by its cases. -/
theorem statusCodesAndInfoRegisters : Obligations.StatusCodesAndInfoRegisters := by
  intro s free
  unfold State.statusCode State.infoRegs
  refine ⟨fun h => ?_, fun x h => ?_, fun h => ?_, fun a op h => ?_, fun a h => ?_, fun a h => ?_, fun a addr h => ?_⟩ <;>
    rw [h]
  · exact ⟨rfl, rfl⟩
  · exact ⟨rfl, rfl⟩
  · exact ⟨rfl, rfl, rfl⟩
  · exact ⟨rfl, rfl⟩
  · exact ⟨rfl, rfl⟩
  · exact ⟨rfl, rfl, rfl⟩

end Sys2Proof.Machine
end
